-- ==== Sys2Proof/Word.lean ====
section
/-! DEFINITION. The value types of 00_scope.md R7 and R8: unsigned bytes, 16-bit values and byte sequences. -/

namespace Sys2Proof

/-- `u8` of R7. -/
abbrev Byte := BitVec 8

/-- `u16` of R7: cookies, ports, CRC values and frame length fields. -/
abbrev U16 := BitVec 16

/-- A byte sequence of R8, offset 0 being the first byte on the wire. -/
abbrev Bytes := List Byte

/-- An opaque diagnostic text (R101 `string`), held as its bytes; no rule reads inside it
(log 2, DESIGN CHOICE, safe). -/
abbrev Text := List Byte

/-- The bytes of a text written as characters, each a single-byte code. -/
def Text.ofChars (cs : List Char) : Text := cs.map fun ch => BitVec.ofNat 8 ch.toNat

end Sys2Proof
end

