-- ==== Sys2Proof/Config.lean ====
section
/-! DEFINITION. The parameters of 00_scope.md R6: the values the source fixes, the defaults the spec gives, and, as
constants without a body, the values it leaves open. -/

namespace Sys2Proof.Config

/-- CRC_POLY, reflected form (R6). -/
abbrev crcPoly : U16 := 0xA001#16

/-- CRC_INIT (R6). -/
abbrev crcInit : U16 := 0x0000#16

/-- START_MARKER (R6). -/
abbrev startMarker : Byte := 0x02#8

/-- END_MARKER (R6). -/
abbrev endMarker : Byte := 0x03#8

/-- FRAME_OVERHEAD in bytes (R6, R93). -/
abbrev frameOverhead : Nat := 12

/-- MAX_PAYLOAD in bytes (R6). -/
abbrev maxPayload : Nat := 65535

/-- MAX_FRAME in bytes (R6, R95). -/
abbrev maxFrame : Nat := frameOverhead + maxPayload

/-- REMOTE_PORT_DEFAULT (R6, R24). -/
abbrev remotePortDefault : U16 := 1234#16

/-- The default of N_PENDING (R6, D8). -/
abbrev nPendingDefault : Nat := 65536

/-- The default of COOKIE_RESET (R6, D5). -/
abbrev cookieResetDefault : U16 := 0x0000#16

/-- TIMEOUT_DEFAULT in ticks: OPEN in R6, so no value is given (log 4, safe). -/
opaque timeoutDefault : Nat

/-- MUTE_ECHO_CH_OFF: OPEN in R6, "a model must not fix them without evidence" (R249) (log 4, safe). -/
opaque muteEchoChOff : Nat

/-- MUTE_ECHO_MUTE_OFF: OPEN in R6 (R249) (log 4, safe). -/
opaque muteEchoMuteOff : Nat

/-- The open order of CLOSE's ABORTED completions (R184, R289 d): where the nth draw puts the next entry among the
`k` already placed (log 5, safe). -/
opaque closePick : Nat → Nat → Nat

/-- The open choice among several enabled EXPIRE steps (R196, R289 b) when no agent presents anything
(log 7, safe). -/
opaque expirePick : Nat → Nat

end Sys2Proof.Config
end

