-- ==== Sys2Proof/Machine/Operands.lean ====
section
/-! DEFINITION. Every operand form of the spec: bytes of a sequence by offset, little-endian 16-bit fields, slices
(00_scope.md R8, R9; 30_encoding.md R91). -/

namespace Sys2Proof

/-- `s[i]` of R8. Every use is at an offset a length check has put in range (R152 [derived]); past the end it reads 0. -/
def byteAt (s : Bytes) (i : Nat) : Byte := s.getD i 0#8

/-- `s[i..j)` of R8. -/
def slice (s : Bytes) (i j : Nat) : Bytes := (s.drop i).take (j - i)

/-- A 16-bit value from its low and high byte (R9, R61). -/
def pair16 (lo hi : Byte) : U16 := lo.setWidth 16 ||| (hi.setWidth 16 <<< 8)

/-- `le16(s, i)` of R9: the low byte is at offset i. -/
def le16 (s : Bytes) (i : Nat) : U16 := pair16 (byteAt s i) (byteAt s (i + 1))

/-- `lebytes16(v)` of R9: the low byte first. -/
def lebytes16 (v : U16) : Bytes := [v.setWidth 8, (v >>> 8).setWidth 8]

/-- The command complement `(~cmd) & 0xFF` (R92). -/
def complementOf (cmd : Byte) : Byte := ~~~cmd

/-- A flag as the byte 1 or 0 (R249 m, R248 a). -/
def boolByte (b : Bool) : Byte := if b then 1#8 else 0#8

end Sys2Proof
end

