-- ==== Sys2Proof/Syntax.lean ====
section
/-! DEFINITION. The instructions: one constructor per row of spec/opcode_table.json. -/

namespace Sys2Proof

/-- The transport's opaque address type (R24, R101), without NONE: a name no rule reads inside
(log 1, DESIGN CHOICE, safe). -/
structure Addr where
  name : Bytes
deriving DecidableEq, Repr

/-- Where a record reaches the machine. The op codes of R100 and the command codes of R98 are two separate code
spaces, and RESET (R320) and EXPIRE (R196) have no code. -/
inductive Line
  /-- a request record `{op, operands}` at the block's ports (R100) -/
  | request
  /-- a step of a host program, named by a command or response code of R98 -/
  | command
  /-- the block's own timer (R196) -/
  | timer
  /-- the reset input (R320) -/
  | reset
deriving DecidableEq, Repr

/-- What a STANDBY request asks: read the state (R246), or the action of setStandbyStatus (R248). -/
inductive StandbyAction
  | read
  | turnOn
  | turnOff
deriving DecidableEq, Repr

/-- One constructor per row of the opcode table. -/
inductive Instr
  /-- CRC_CLEAR (R133) -/
  | crcClear
  /-- CRC_UPDATE d (R134) -/
  | crcUpdate (d : Byte)
  /-- CRC_READ (R135) -/
  | crcRead
  /-- ENCODE cmd, cookie, port, payload (R150, R151) -/
  | encode (cmd : Byte) (cookie port : U16) (payload : Bytes)
  /-- DECODE bytes (R153) -/
  | decode (frame : Bytes)
  /-- OPEN local_port (R181 to R183) -/
  | openSession (localPort : U16)
  /-- CLOSE (R184, R185) -/
  | closeSession
  /-- SEND cmd, payload, timeout (R186 to R191) -/
  | send (cmd : Byte) (payload : Bytes) (timeout : Nat)
  /-- RECEIVE bytes, one datagram (R192 to R195) -/
  | receive (frame : Bytes)
  /-- TICK (R197) -/
  | tick
  /-- IO_ERROR detail (R199) -/
  | ioError (detail : Text)
  /-- CFG_REMOTE host, port (R200) -/
  | cfgRemote (host : Addr) (port : U16)
  /-- CSR_READ index (R201); the index is a u4, carried in a byte (WellFormed checks the range) -/
  | csrRead (index : Byte)
  /-- reserved op code 0x0 (R102) -/
  | reserved0
  /-- reserved op code 0xE (R102) -/
  | reservedE
  /-- reserved op code 0xF (R102) -/
  | reservedF
  /-- EXPIRE c, the block's own step (R196) -/
  | expire (c : U16)
  /-- the reset input (R320 to R322) -/
  | reset
  /-- PING: the request of ping() (R242); no timeout operand means TIMEOUT_DEFAULT (R240) -/
  | ping (timeout : Option Nat)
  /-- READGM: the request of getChannelCount() (R245) -/
  | readgm (timeout : Option Nat)
  /-- WRITEOUTMUTE: the request of setOutputMute(channel, mute) (R249) -/
  | writeoutmute (channel : Byte) (mute : Bool) (timeout : Option Nat)
  /-- INFO: the request of getInfo() (R243) -/
  | info (timeout : Option Nat)
  /-- STANDBY: the request of getStandbyStatus() (R246) or setStandbyStatus (R248) -/
  | standby (action : StandbyAction) (timeout : Option Nat)
  /-- PING_RESPONSE: ping() takes the completion of cookie c and checks it (R241, R242) -/
  | pingResponse (c : U16)
  /-- READGM_RESPONSE: getChannelCount() takes the completion of cookie c (R241, R245) -/
  | readgmResponse (c : U16)
  /-- WRITEOUTMUTE_RESPONSE: setOutputMute takes the completion of cookie c (R241, R249) -/
  | writeoutmuteResponse (c : U16)
  /-- INFO_RESPONSE: getInfo() takes the completion of cookie c (R241, R243) -/
  | infoResponse (c : U16)
  /-- STANDBY_RESPONSE: getStandbyStatus() or setStandbyStatus takes the completion of cookie c (R241, R246, R248) -/
  | standbyResponse (c : U16)
deriving DecidableEq, Repr

end Sys2Proof
end

