-- ==== Sys2Proof/WellFormed.lean ====
section
/-! DEFINITION. Which terms are instructions a port can carry: "An operand value outside its type cannot be
presented" (R101). Every operand but CSR_READ's index has exactly its type's values by construction. -/

namespace Sys2Proof

/-- CSR_READ's index is a u4 (R100, R201); all other operands carry their type's values and no others. -/
def Instr.wellFormed : Instr → Bool
  | .csrRead index => decide (index.toNat < 16)
  | .crcClear => true
  | .crcUpdate _ => true
  | .crcRead => true
  | .encode _ _ _ _ => true
  | .decode _ => true
  | .openSession _ => true
  | .closeSession => true
  | .send _ _ _ => true
  | .receive _ => true
  | .tick => true
  | .ioError _ => true
  | .cfgRemote _ _ => true
  | .reserved0 => true
  | .reservedE => true
  | .reservedF => true
  | .expire _ => true
  | .reset => true
  | .ping _ => true
  | .readgm _ => true
  | .writeoutmute _ _ _ => true
  | .info _ => true
  | .standby _ _ => true
  | .pingResponse _ => true
  | .readgmResponse _ => true
  | .writeoutmuteResponse _ => true
  | .infoResponse _ => true
  | .standbyResponse _ => true

end Sys2Proof
end

