-- ==== Sys2Proof/Decode.lean ====
section
/-! DEFINITION. Decoding a presented record, total on any bytes and rejecting by name, and the encoder.

The spec gives the codes (30_encoding.md R98, R100) and the operand types (R101) and says that operands are carried
"as whole values of their declared type". How those values stand in a record's bytes is this model's own layout (log 9,
DESIGN CHOICE, safe): the code byte, then the operands in the order of R100; u8 and u4 as one byte, u16 as lebytes16
(R9), a natural in base 128 with the low group first and bit 7 set on every group but the last, a byte sequence as its
length (a natural) and its bytes. -/

namespace Sys2Proof

/-- Why a record is no record of the spec's types (R101). -/
inductive DecodeError
  /-- no code byte -/
  | emptyRecord
  /-- a first byte above 0xF: op is a u4 (R100) -/
  | noSuchOp (b : Byte)
  /-- a command byte outside the table of R98: no host program exists for it (R251) -/
  | noSuchCommand (b : Byte)
  /-- the record ends inside an operand -/
  | missingOperand
  /-- an operand byte outside its type -/
  | badOperand
  /-- bytes after the last operand -/
  | trailingBytes
deriving DecidableEq, Repr

/-! ### Operand readers and writers -/

def readU8 : Bytes → Except DecodeError (Byte × Bytes)
  | [] => .error .missingOperand
  | b :: r => .ok (b, r)

def readU16 : Bytes → Except DecodeError (U16 × Bytes)
  | lo :: hi :: r => .ok (pair16 lo hi, r)
  | [_] => .error .missingOperand
  | [] => .error .missingOperand

/-- A u4 stands in a byte whose high half is 0. -/
def readU4 : Bytes → Except DecodeError (Byte × Bytes)
  | [] => .error .missingOperand
  | b :: r => if b.toNat < 16 then .ok (b, r) else .error .badOperand

/-- A natural, low group first; a last group of 0 after another group is no natural of this layout. -/
def readNat : Bytes → Except DecodeError (Nat × Bytes)
  | [] => .error .missingOperand
  | b :: r =>
    if b.toNat < 128 then .ok (b.toNat, r)
    else match readNat r with
      | .ok (n, r') => if n = 0 then .error .badOperand else .ok (b.toNat - 128 + 128 * n, r')
      | .error e => .error e

def readBytes (s : Bytes) : Except DecodeError (Bytes × Bytes) :=
  match readNat s with
  | .ok (n, r) => if n ≤ r.length then .ok (r.take n, r.drop n) else .error .missingOperand
  | .error e => .error e

def readAddr (s : Bytes) : Except DecodeError (Addr × Bytes) :=
  match readBytes s with
  | .ok (a, r) => .ok (⟨a⟩, r)
  | .error e => .error e

def readBool : Bytes → Except DecodeError (Bool × Bytes)
  | [] => .error .missingOperand
  | b :: r => if b = 0#8 then .ok (false, r) else if b = 1#8 then .ok (true, r) else .error .badOperand

/-- The byte is the request's payload byte 0 (R246: 0 reads; R248: 1 turns on, 2 turns off). -/
def readAction : Bytes → Except DecodeError (StandbyAction × Bytes)
  | [] => .error .missingOperand
  | b :: r =>
    if b = 0#8 then .ok (.read, r)
    else if b = 1#8 then .ok (.turnOn, r)
    else if b = 2#8 then .ok (.turnOff, r)
    else .error .badOperand

/-- 0 for "no timeout operand", 1 and a natural for one (R240). -/
def readTimeout : Bytes → Except DecodeError (Option Nat × Bytes)
  | [] => .error .missingOperand
  | b :: r =>
    if b = 0#8 then .ok (none, r)
    else if b = 1#8 then
      match readNat r with
      | .ok (n, r') => .ok (some n, r')
      | .error e => .error e
    else .error .badOperand

/-- Base 128, with as many groups as `fuel` allows; `writeNat` gives enough. -/
def writeNatFuel : Nat → Nat → Bytes
  | 0, n => [BitVec.ofNat 8 n]
  | fuel + 1, n =>
    if n < 128 then [BitVec.ofNat 8 n]
    else BitVec.ofNat 8 (n % 128 + 128) :: writeNatFuel fuel (n / 128)

def writeNat (n : Nat) : Bytes := writeNatFuel n n

def writeBytes (s : Bytes) : Bytes := writeNat s.length ++ s

def StandbyAction.byte : StandbyAction → Byte
  | .read => 0#8
  | .turnOn => 1#8
  | .turnOff => 2#8

def writeTimeout : Option Nat → Bytes
  | none => [0#8]
  | some n => 1#8 :: writeNat n

/-! ### Records -/

/-- The operands of a request record whose op code is `op` (R100). -/
def parseRequest (op : Nat) (r : Bytes) : Except DecodeError (Instr × Bytes) :=
  match op with
  | 0x0 => .ok (.reserved0, r)
  | 0x1 => .ok (.crcClear, r)
  | 0x2 => do
    let (d, r) ← readU8 r
    .ok (.crcUpdate d, r)
  | 0x3 => .ok (.crcRead, r)
  | 0x4 => do
    let (cmd, r) ← readU8 r
    let (cookie, r) ← readU16 r
    let (port, r) ← readU16 r
    let (payload, r) ← readBytes r
    .ok (.encode cmd cookie port payload, r)
  | 0x5 => do
    let (f, r) ← readBytes r
    .ok (.decode f, r)
  | 0x6 => do
    let (p, r) ← readU16 r
    .ok (.openSession p, r)
  | 0x7 => .ok (.closeSession, r)
  | 0x8 => do
    let (cmd, r) ← readU8 r
    let (payload, r) ← readBytes r
    let (t, r) ← readNat r
    .ok (.send cmd payload t, r)
  | 0x9 => do
    let (f, r) ← readBytes r
    .ok (.receive f, r)
  | 0xA => .ok (.tick, r)
  | 0xB => do
    let (t, r) ← readBytes r
    .ok (.ioError t, r)
  | 0xC => do
    let (h, r) ← readAddr r
    let (p, r) ← readU16 r
    .ok (.cfgRemote h p, r)
  | 0xD => do
    let (i, r) ← readU4 r
    .ok (.csrRead i, r)
  | 0xE => .ok (.reservedE, r)
  | 0xF => .ok (.reservedF, r)
  | b => .error (.noSuchOp (BitVec.ofNat 8 b))

/-- The operands of a host program's step named by the command or response code `code` (R98). -/
def parseCommand (code : Nat) (r : Bytes) : Except DecodeError (Instr × Bytes) :=
  match code with
  | 0x00 => do
    let (t, r) ← readTimeout r
    .ok (.ping t, r)
  | 0x01 => do
    let (t, r) ← readTimeout r
    .ok (.readgm t, r)
  | 0x03 => do
    let (ch, r) ← readU8 r
    let (m, r) ← readBool r
    let (t, r) ← readTimeout r
    .ok (.writeoutmute ch m t, r)
  | 0x0B => do
    let (t, r) ← readTimeout r
    .ok (.info t, r)
  | 0x0E => do
    let (a, r) ← readAction r
    let (t, r) ← readTimeout r
    .ok (.standby a t, r)
  | 0xFF => do
    let (c, r) ← readU16 r
    .ok (.pingResponse c, r)
  | 0xFE => do
    let (c, r) ← readU16 r
    .ok (.readgmResponse c, r)
  | 0xFC => do
    let (c, r) ← readU16 r
    .ok (.writeoutmuteResponse c, r)
  | 0xF4 => do
    let (c, r) ← readU16 r
    .ok (.infoResponse c, r)
  | 0xF1 => do
    let (c, r) ← readU16 r
    .ok (.standbyResponse c, r)
  | b => .error (.noSuchCommand (BitVec.ofNat 8 b))

/-- The instruction a record begins with, and the bytes after it. -/
def parse : Line → Bytes → Except DecodeError (Instr × Bytes)
  | .request, [] => .error .emptyRecord
  | .request, b :: r => parseRequest b.toNat r
  | .command, [] => .error .emptyRecord
  | .command, b :: r => parseCommand b.toNat r
  | .timer, r => do
    let (c, r) ← readU16 r
    .ok (.expire c, r)
  | .reset, r => .ok (.reset, r)

/-- The instruction a whole record stands for: nothing may be left over. -/
def decode (line : Line) (s : Bytes) : Except DecodeError Instr :=
  match parse line s with
  | .ok (i, []) => .ok i
  | .ok (_, _ :: _) => .error .trailingBytes
  | .error e => .error e

/-! ### The encoder -/

/-- The line an instruction is presented on. -/
def Instr.line : Instr → Line
  | .crcClear => .request
  | .crcUpdate _ => .request
  | .crcRead => .request
  | .encode _ _ _ _ => .request
  | .decode _ => .request
  | .openSession _ => .request
  | .closeSession => .request
  | .send _ _ _ => .request
  | .receive _ => .request
  | .tick => .request
  | .ioError _ => .request
  | .cfgRemote _ _ => .request
  | .csrRead _ => .request
  | .reserved0 => .request
  | .reservedE => .request
  | .reservedF => .request
  | .expire _ => .timer
  | .reset => .reset
  | .ping _ => .command
  | .readgm _ => .command
  | .writeoutmute _ _ _ => .command
  | .info _ => .command
  | .standby _ _ => .command
  | .pingResponse _ => .command
  | .readgmResponse _ => .command
  | .writeoutmuteResponse _ => .command
  | .infoResponse _ => .command
  | .standbyResponse _ => .command

/-- The record of an instruction. -/
def encode : Instr → Bytes
  | .crcClear => [0x01#8]
  | .crcUpdate d => [0x02#8, d]
  | .crcRead => [0x03#8]
  | .encode cmd cookie port payload => 0x04#8 :: cmd :: (lebytes16 cookie ++ (lebytes16 port ++ writeBytes payload))
  | .decode f => 0x05#8 :: writeBytes f
  | .openSession p => 0x06#8 :: lebytes16 p
  | .closeSession => [0x07#8]
  | .send cmd payload t => 0x08#8 :: cmd :: (writeBytes payload ++ writeNat t)
  | .receive f => 0x09#8 :: writeBytes f
  | .tick => [0x0A#8]
  | .ioError t => 0x0B#8 :: writeBytes t
  | .cfgRemote h p => 0x0C#8 :: (writeBytes h.name ++ lebytes16 p)
  | .csrRead i => [0x0D#8, i]
  | .reserved0 => [0x00#8]
  | .reservedE => [0x0E#8]
  | .reservedF => [0x0F#8]
  | .expire c => lebytes16 c
  | .reset => []
  | .ping t => 0x00#8 :: writeTimeout t
  | .readgm t => 0x01#8 :: writeTimeout t
  | .writeoutmute ch m t => 0x03#8 :: ch :: boolByte m :: writeTimeout t
  | .info t => 0x0B#8 :: writeTimeout t
  | .standby a t => 0x0E#8 :: a.byte :: writeTimeout t
  | .pingResponse c => 0xFF#8 :: lebytes16 c
  | .readgmResponse c => 0xFE#8 :: lebytes16 c
  | .writeoutmuteResponse c => 0xFC#8 :: lebytes16 c
  | .infoResponse c => 0xF4#8 :: lebytes16 c
  | .standbyResponse c => 0xF1#8 :: lebytes16 c

/-! ### A word of the opcode table -/

/-- The first `k` bytes of a word numbered as the table numbers it, the low byte first. -/
def wordBytes : Nat → Nat → Bytes
  | 0, _ => []
  | k + 1, w => BitVec.ofNat 8 w :: wordBytes k (w / 256)

/-- The bytes a record takes up when it is followed by more. -/
def recordOf (line : Line) (s : Bytes) : Bytes :=
  match parse line s with
  | .ok (_, rest) => s.take (s.length - rest.length)
  | .error _ => s

/-- The line of a table word. The op codes of R100 (4 bits) and the command codes of R98 (8 bits) both fill one byte
of the table and overlap at 0x00 to 0x0F; such a byte is read as an op code, a larger one as a command code
(log 10, DESIGN CHOICE, safe). -/
def tableLine (w : Nat) : Line := if w % 256 < 16 then .request else .command

/-- The record a table word stands for: its bytes, then as many zero operand bytes as its instruction has. -/
def tableRecord (nbits w : Nat) : Bytes :=
  recordOf (tableLine w) (wordBytes (max 1 ((nbits + 7) / 8)) w ++ List.replicate 16 0#8)

/-- The instruction the decoder reads from a table word of `nbits` bits whose further bits are 0. -/
def decodeTableWord (nbits w : Nat) : Option Instr :=
  match decode (tableLine w) (tableRecord nbits w) with
  | .ok i => some i
  | .error _ => none

end Sys2Proof
end

