-- ==== Sys2Proof/Machine/State.lean ====
section
/-! DEFINITION. The architectural state of one PSA-PE instance (10_state.md R20 to R31), the records of its ports
(60_exceptions.md R281 to R285), and the model's own fields beside it. -/

namespace Sys2Proof.Machine

/-! ### Records -/

/-- Decode reasons, in the order the decoder checks them (R282). -/
inductive DecodeReason
  | tooShort
  | badStart
  | badEnd
  | badLength
  | badComplement
  | badCrc
deriving DecidableEq, Repr

/-- The result codes of R281. -/
inductive ResultCode
  | ok
  | notOpen
  | tooLong
  | tableFull
  | collision
  | alreadyOpen
  | badConfig
  | illegalOp
  | illegalCsr
  | invalid
deriving DecidableEq, Repr

/-- A decoded message (R152, R203). -/
structure Message where
  command   : Byte
  cookie    : U16
  replyPort : U16
  payload   : Bytes
deriving DecidableEq, Repr

/-- The value a RESULT record carries (R281, last column). -/
inductive Value
  /-- the table's "—" -/
  | absent
  /-- a number: cookie, CRC, CSR value, count, length or index -/
  | num (n : Nat)
  /-- an encoded frame (R150) -/
  | frame (b : Bytes)
  /-- a decoded message (R153) -/
  | message (m : Message)
  /-- a decode reason (R153) -/
  | reason (r : DecodeReason)
deriving DecidableEq, Repr

/-- `Result(code, value)` (R31, R281). -/
structure ResultRecord where
  code  : ResultCode
  value : Value
deriving DecidableEq, Repr

/-- `Datagram(dst_host, dst_port, bytes)` on the TX port (R31, R205). -/
structure Datagram where
  dstHost : Option Addr
  dstPort : U16
  bytes   : Bytes
deriving DecidableEq, Repr

/-- Completion kinds (R203, R283). -/
inductive CompletionKind
  | response
  | timeout
  | aborted
deriving DecidableEq, Repr

/-- `Completion(cookie, kind, msg)` on the CPL port (R203). -/
structure Completion where
  cookie : U16
  kind   : CompletionKind
  msg    : Option Message
deriving DecidableEq, Repr

/-- Log levels (R284). -/
inductive LogLevel
  | debug
  | info
  | warn
  | error
deriving DecidableEq, Repr

/-- Log events (R284). -/
inductive LogEvent
  | dropInvalid
  | dropUnmatched
  | dropClosed
deriving DecidableEq, Repr

/-- The argument of a log record (R284, last column). -/
inductive LogArg
  | reason (r : DecodeReason)
  | cookie (c : U16)
  | length (n : Nat)
deriving DecidableEq, Repr

/-- `Log(level, event, arg)` (R284). -/
structure LogRecord where
  level : LogLevel
  event : LogEvent
  arg   : LogArg
deriving DecidableEq, Repr

/-- Status states (R285). -/
inductive StatusState
  | connecting
  | ok
  | connectionFailure
  | badConfig
deriving DecidableEq, Repr

/-- `Status(state, detail)` (R285). -/
structure StatusRecord where
  state  : StatusState
  detail : Text
deriving DecidableEq, Repr

/-- SESS_STATE (R22). -/
inductive SessState
  | closed
  | opened
deriving DecidableEq, Repr

/-- A valid entry of the pending table (R26); an entry that is not listed has valid = 0, and its deadline, which no
rule reads, is not stored (log 18, DEDUCED, safe). -/
structure PtEntry where
  cookie   : U16
  deadline : Nat
deriving DecidableEq, Repr

/-! ### The host programs (43_host_operations.md; the model's own state, log 14) -/

/-- What an outstanding call of a host program was (R242 to R249). -/
inductive HostCallKind
  | ping
  | getInfo
  | getChannelCount
  | getStandbyStatus
  | setStandbyStatus (turnOn : Bool)
  | setOutputMute (channel : Byte) (mute : Bool)
deriving DecidableEq, Repr

/-- A call that has sent its request and waits for the completion of its cookie (R240). -/
structure HostCall where
  cookie : U16
  kind   : HostCallKind
deriving DecidableEq, Repr

/-- The four fields getInfo returns (R243). -/
structure AmpInfo where
  manufacturer : Bytes
  family       : Bytes
  model        : Bytes
  serial       : Bytes
deriving DecidableEq, Repr

/-- The pair getStandbyStatus returns (R246). -/
structure StandbyStatus where
  online  : Bool
  standby : Bool
deriving DecidableEq, Repr

/-- What a host program returns (R242 to R249): a boolean, or a result that may be absent. -/
inductive HostValue
  | bool (b : Bool)
  | info (r : Option AmpInfo)
  | channelCount (r : Option Byte)
  | standby (r : Option StandbyStatus)
deriving DecidableEq, Repr

structure HostReturn where
  kind  : HostCallKind
  value : HostValue
deriving DecidableEq, Repr

/-- Why a host program failed (R241); the spec gives the line no text (log 26, DESIGN CHOICE, safe). -/
inductive HostLogCause
  /-- SEND returned a code other than OK -/
  | sendFailed (code : ResultCode)
  /-- the completion's kind is TIMEOUT or ABORTED -/
  | notResponse (kind : CompletionKind)
  /-- msg.command is not the command's response code -/
  | wrongCommand (cmd : Byte)
  /-- the payload fails the operation's own checks -/
  | badPayload
  /-- the block was reset while the request was pending (R322) -/
  | lostAtReset
deriving DecidableEq, Repr

/-- A line a host program writes (R241); the spec gives it no level (log 26). -/
structure HostLogLine where
  kind  : HostCallKind
  cause : HostLogCause
deriving DecidableEq, Repr

/-- A line of the host's logging sink: a record consumed from LOG (R31), or a host program's own, written "to the same
sink" (R284). -/
inductive SinkLine
  | block (r : LogRecord)
  | host (l : HostLogLine)
deriving DecidableEq, Repr

/-! ### Inputs -/

/-- The output ports of R31. -/
inductive Port
  | result
  | tx
  | cpl
  | log
  | status
deriving DecidableEq, Repr

/-- What an agent outside the block can do at a step boundary. -/
inductive Event
  /-- a record is presented on a line (R32, R100, R320) -/
  | present (line : Line) (record : Bytes)
  /-- a consumer removes the front record of a port (R31) -/
  | takeFront (port : Port)
  /-- the host's `WAIT CPL c` outside the host programs (R104) -/
  | waitCpl (c : U16)
  /-- a caller asks for toggleMute (R250) -/
  | toggleMute (channel : Byte)
deriving DecidableEq, Repr

/-- The parameters of R6 that have a default; constant in a run (log 3). -/
structure Params where
  /-- N_PENDING - 1: R6 admits 1..65536 for N_PENDING and nothing else -/
  nPendingLess1    : Fin 65536
  /-- COOKIE_RESET -/
  cookieReset      : U16
  /-- INFO_REQ_PAYLOAD -/
  infoReqPayload   : Bytes
  /-- READGM_REQ_PAYLOAD -/
  readgmReqPayload : Bytes
deriving DecidableEq, Repr

/-- N_PENDING (R6). -/
def Params.nPending (q : Params) : Nat := q.nPendingLess1.val + 1

/-- The parameters at the spec's defaults (R6). -/
def Params.default : Params where
  nPendingLess1 := Fin.ofNat 65536 (Config.nPendingDefault - 1)
  cookieReset := Config.cookieResetDefault
  infoReqPayload := []
  readgmReqPayload := []

/-! ### The state -/

/-- The state of one instance (R20), and the model's own fields after it. -/
structure State where
  /-- CRC_ACC (R21) -/
  crcAcc         : U16
  /-- SESS_STATE (R22) -/
  sessState      : SessState
  /-- LOCAL_PORT (R23) -/
  localPort      : U16
  /-- REMOTE_HOST, NONE as `none` (R24) -/
  remoteHost     : Option Addr
  /-- REMOTE_PORT (R24) -/
  remotePort     : U16
  /-- NEXT_COOKIE (R25) -/
  nextCookie     : U16
  /-- NOW (R30) -/
  now            : Nat
  /-- FAULT_COLLISION (R29) -/
  faultCollision : Bool
  /-- PT (R26): its valid entries, by rising cookie -/
  pt             : List PtEntry
  /-- the RESULT port (R31), the record to be consumed first at the front -/
  result         : List ResultRecord
  /-- the TX port (R31) -/
  tx             : List Datagram
  /-- the CPL port (R31) -/
  cpl            : List Completion
  /-- the LOG port (R31) -/
  log            : List LogRecord
  /-- the STATUS port (R31) -/
  status         : List StatusRecord
  /-- the model's own: the parameters (log 3) -/
  params         : Params
  /-- the model's own: what the agents will do, in order (log 6) -/
  inputs         : List Event
  /-- the model's own: the host programs' outstanding calls, oldest first (log 14) -/
  hostCalls      : List HostCall
  /-- the model's own: what the host programs returned, oldest first (log 14) -/
  hostReturns    : List HostReturn
  /-- the model's own: the completions the host took from CPL for cookies it was not waiting for, oldest first
  (logs 14, 16) -/
  hostKept       : List Completion
  /-- the model's own: the lines of the host's logging sink, oldest first (R31, R284; log 14) -/
  logSink        : List SinkLine
  /-- the model's own: the counter open choices are drawn with (log 19) -/
  freeCount      : Nat
deriving DecidableEq, Repr

/-- The state after power-on reset (R321): every register at its reset value, no record emitted yet. The model's own
fields start empty (logs 3, 6, 14, 19, DESIGN CHOICE). -/
def State.reset : State where
  crcAcc := 0x0000#16
  sessState := .closed
  localPort := 0x0000#16
  remoteHost := none
  remotePort := Config.remotePortDefault
  nextCookie := Params.default.cookieReset
  now := 0
  faultCollision := false
  pt := []
  result := []
  tx := []
  cpl := []
  log := []
  status := []
  params := Params.default
  inputs := []
  hostCalls := []
  hostReturns := []
  hostKept := []
  logSink := []
  freeCount := 0

/-! ### How a step can stop -/

/-- No operation stops the block: "No operation is ever stopped halfway" (R280), every error is an outcome. The spec
names no fault, so the type has no constructor. -/
inductive Fault
deriving DecidableEq, Repr

/-- Why a step has no meaning. -/
inductive Refusal
  /-- raised by an arm of exec for an instruction without a meaning: none is left; safe -/
  | notModelled (mnemonic : String)
  /-- raised by step when a presented record is no record of the spec's types: "An operand value outside its type
  cannot be presented" (R101); safe (log 11) -/
  | cannotBePresented (e : DecodeError)
  /-- raised by step when a caller asks for toggleMute: "a model refuses it by name" (R250); safe (log 21) -/
  | toggleMute
deriving DecidableEq, Repr

end Sys2Proof.Machine
end

