-- ==== Sys2Proof/Machine/Ops.lean ====
section
/-! DEFINITION. The shared operations: emitting on a port, the pending table, the open choices, consuming records.

Taking an exception: the block has none. "There is no trap entry. A failing operation saves no state, changes no mode and
jumps nowhere" (60_exceptions.md R290) and "There is no trap return" (R291); a failing operation is `fail` below. -/

namespace Sys2Proof.Machine

/-! ### Emitting (R10, R31): one record is appended to one port -/

def emitResult (code : ResultCode) (value : Value) (s : State) : State :=
  { s with result := s.result ++ [⟨code, value⟩] }

def emitTx (d : Datagram) (s : State) : State := { s with tx := s.tx ++ [d] }

def emitCpl (cs : List Completion) (s : State) : State := { s with cpl := s.cpl ++ cs }

def emitLog (r : LogRecord) (s : State) : State := { s with log := s.log ++ [r] }

def emitStatus (r : StatusRecord) (s : State) : State := { s with status := s.status ++ [r] }

/-- A failing host operation writes "nothing beyond its RESULT" (R290). -/
def fail (code : ResultCode) (value : Value) (s : State) : State := emitResult code value s

/-- A successful host operation's RESULT record. -/
def succeed (value : Value) (s : State) : State := emitResult .ok value s

/-! ### The pending table PT (R26): its valid entries by rising cookie -/

/-- The canonical form: cookies strictly rise, so each has at most one entry. -/
abbrev ptWf (t : List PtEntry) : Prop := t.Pairwise fun a b => a.cookie < b.cookie

/-- The deadline of PT[c] where PT[c].valid = 1. -/
def ptLookup (c : U16) : List PtEntry → Option Nat
  | [] => none
  | e :: t => if e.cookie = c then some e.deadline else ptLookup c t

/-- PT[c].valid (R26). -/
def ptValid (c : U16) (t : List PtEntry) : Bool := (ptLookup c t).isSome

/-- PT[c] <- {valid: 1, deadline: d}. -/
def ptSet (c : U16) (d : Nat) : List PtEntry → List PtEntry
  | [] => [⟨c, d⟩]
  | e :: t =>
    if c < e.cookie then ⟨c, d⟩ :: e :: t
    else if e.cookie = c then ⟨c, d⟩ :: t
    else e :: ptSet c d t

/-- PT[c].valid <- 0. -/
def ptClear (c : U16) (t : List PtEntry) : List PtEntry := t.filter fun e => !decide (e.cookie = c)

/-- PENDING_COUNT (R27). -/
def pendingCount (s : State) : Nat := s.pt.length

/-- EXPIRE c's enabling condition: PT[c].valid = 1 and NOW ≥ PT[c].deadline (R196). -/
def expirable (c : U16) (s : State) : Bool :=
  match ptLookup c s.pt with
  | some d => decide (d ≤ s.now)
  | none => false

/-- The entries whose EXPIRE is enabled. -/
def dueEntries (s : State) : List PtEntry := s.pt.filter fun e => decide (e.deadline ≤ s.now)

/-! ### Open choices -/

/-- `x` put at place `k` of the list, or at its end. -/
def placeAt {α : Type} (x : α) : List α → Nat → List α
  | [], _ => [x]
  | y :: l, k => if k = 0 then x :: y :: l else y :: placeAt x l (k - 1)

/-- An order of the list that `pick` decides: every order is the result of some `pick`, and every result is an order
of the list (R184 "in an order the model leaves open"). -/
def arrange {α : Type} (pick : Nat → Nat) : List α → List α
  | [] => []
  | x :: l => placeAt x (arrange pick l) (pick l.length)

/-- The element at place `k`, or the last one. -/
def pickOne {α : Type} : List α → Nat → Option α
  | [], _ => none
  | [x], _ => some x
  | x :: y :: l, k => if k = 0 then some x else pickOne (y :: l) (k - 1)

/-- The order of the next CLOSE's ABORTED completions (log 5). -/
def closeOrder (s : State) : List PtEntry := arrange (Config.closePick s.freeCount) s.pt

/-- The enabled EXPIRE that moves next when only EXPIREs can move (log 7). -/
def expireChoice (s : State) : Option PtEntry := pickOne (dueEntries s) (Config.expirePick s.freeCount)

/-- A free value was drawn: the next draw is another one. -/
def drawn (s : State) : State := { s with freeCount := s.freeCount + 1 }

/-! ### Consuming records -/

/-- The consumer of a port removes the record at its front (R31); there is nothing to remove from an empty port
(log 28). The consumer of LOG is the host's logging sink, so a record removed there is the sink's next line. -/
def takeFront (p : Port) (s : State) : State :=
  match p with
  | .result => { s with result := s.result.tail }
  | .tx => { s with tx := s.tx.tail }
  | .cpl => { s with cpl := s.cpl.tail }
  | .log =>
    match s.log with
    | [] => s
    | r :: l => { s with log := l, logSink := s.logSink ++ [.block r] }
  | .status => { s with status := s.status.tail }

/-- The first record of cookie `c`, with the records before it and those after it. -/
def findCompletion (c : U16) : List Completion → Option (List Completion × Completion × List Completion)
  | [] => none
  | k :: l =>
    if k.cookie = c then some ([], k, l)
    else match findCompletion c l with
      | some (front, k', back) => some (k :: front, k', back)
      | none => none

/-- "the next completion record for cookie c from the CPL port" (R104 WAIT CPL), and the state with it taken. The host
takes records from CPL's front in order (R31) up to the one it waits for; it keeps the others for their own waits, and
looks among the kept ones first (log 16). -/
def nextCompletion (c : U16) (s : State) : Option (Completion × State) :=
  match findCompletion c s.hostKept with
  | some (front, k, back) => some (k, { s with hostKept := front ++ back })
  | none =>
    match findCompletion c s.cpl with
    | some (front, k, back) => some (k, { s with cpl := back, hostKept := s.hostKept ++ front })
    | none => none

/-- `WAIT CPL c` of the host outside the host programs: with no such record the host goes on waiting and nothing
changes (R104, log 13). -/
def waitCpl (c : U16) (s : State) : State :=
  match nextCompletion c s with
  | some (_, t) => t
  | none => s

end Sys2Proof.Machine
end

