-- ==== Sys2Proof/Machine/Crc.lean ====
section
/-! DEFINITION. The CRC functions (40_crc.md R130 to R132) and the CRC unit (R133 to R135). -/

namespace Sys2Proof.Machine

/-- The bit step (R130). -/
def crcBit (c : U16) : U16 := if c.getLsbD 0 then (c >>> 1) ^^^ Config.crcPoly else c >>> 1

/-- `n` bit steps. -/
def crcBits : Nat → U16 → U16
  | 0, t => t
  | n + 1, t => crcBits n (crcBit t)

/-- The byte step (R131): the byte enters the low 8 bits, then 8 bit steps. -/
def crcByte (c : U16) (d : Byte) : U16 := crcBits 8 (c ^^^ d.setWidth 16)

/-- The byte steps of a sequence from a running value. -/
def crcFrom (c : U16) : Bytes → U16
  | [] => c
  | d :: s => crcFrom (crcByte c d) s

/-- The sequence function (R132): from CRC_INIT, no final XOR, no output reflection. -/
def crc16 (s : Bytes) : U16 := crcFrom Config.crcInit s

/-- CRC_CLEAR (R133). -/
def execCrcClear (s : State) : Host.Outcome State Fault Refusal :=
  .next (succeed (.num 0) { s with crcAcc := 0x0000#16 })

/-- CRC_UPDATE d (R134): the RESULT carries the new value. -/
def execCrcUpdate (d : Byte) (s : State) : Host.Outcome State Fault Refusal :=
  let v := crcByte s.crcAcc d
  .next (succeed (.num v.toNat) { s with crcAcc := v })

/-- CRC_READ (R135). -/
def execCrcRead (s : State) : Host.Outcome State Fault Refusal :=
  .next (succeed (.num s.crcAcc.toNat) s)

end Sys2Proof.Machine
end

