-- ==== Sys2Proof/Machine/Codec.lean ====
section
/-! DEFINITION. The frame codec (41_frame_codec.md), over the frame of 30_encoding.md R90. -/

namespace Sys2Proof.Machine

/-- `encodeFrame` (R150); its precondition is len(P) ≤ 65535. -/
def encodeFrame (cmd : Byte) (cookie port : U16) (payload : Bytes) : Bytes :=
  [Config.startMarker, cmd] ++ lebytes16 cookie ++ lebytes16 (BitVec.ofNat 16 payload.length) ++ lebytes16 port
    ++ payload ++ lebytes16 (crc16 payload) ++ [complementOf cmd, Config.endMarker]

/-- The declared payload length L of a frame (R91). -/
def frameLength (f : Bytes) : Nat := (le16 f 4).toNat

/-- The payload field (R91). -/
def framePayload (f : Bytes) : Bytes := slice f 8 (8 + frameLength f)

/-- The message of a frame (R91, R152). -/
def frameMessage (f : Bytes) : Message where
  command := byteAt f 1
  cookie := le16 f 2
  replyPort := le16 f 6
  payload := framePayload f

/-- `decodeFrame` (R152): the checks in this order, the first that fails gives the reason. An invalid frame is a
normal outcome (R154). -/
def decodeFrame (f : Bytes) : Except DecodeReason Message :=
  if f.length < Config.frameOverhead then .error .tooShort
  else if byteAt f 0 ≠ Config.startMarker then .error .badStart
  else if byteAt f (f.length - 1) ≠ Config.endMarker then .error .badEnd
  else if f.length ≠ Config.frameOverhead + frameLength f then .error .badLength
  else if byteAt f (10 + frameLength f) ≠ complementOf (byteAt f 1) then .error .badComplement
  else if le16 f (8 + frameLength f) ≠ crc16 (framePayload f) then .error .badCrc
  else .ok (frameMessage f)

/-- ENCODE (R150), with TOO_LONG for a payload over 65535 bytes (R151). -/
def execEncode (cmd : Byte) (cookie port : U16) (payload : Bytes) (s : State) : Host.Outcome State Fault Refusal :=
  if payload.length ≤ Config.maxPayload then
    .next (succeed (.frame (encodeFrame cmd cookie port payload)) s)
  else
    .next (fail .tooLong (.num payload.length) s)

/-- DECODE (R153). -/
def execDecode (f : Bytes) (s : State) : Host.Outcome State Fault Refusal :=
  match decodeFrame f with
  | .ok m => .next (succeed (.message m) s)
  | .error r => .next (fail .invalid (.reason r) s)

end Sys2Proof.Machine
end

