-- ==== Sys2Proof/Machine/Flags.lean ====
section
/-! DEFINITION. The block's only flags, SESS_STATE and FAULT_COLLISION (10_state.md R29), the CSR view that shows them
(R34), and the numeric codes of 60_exceptions.md R281 to R285. There are no condition codes (R29). -/

namespace Sys2Proof.Machine

/-- SESS_STATE as a bit (R22). -/
def SessState.bit : SessState → U16
  | .closed => 0#16
  | .opened => 1#16

/-- The STATUS CSR: bit 0 SESS_STATE, bit 1 FAULT_COLLISION, bits 15:2 read 0 (R34). -/
def statusWord (s : State) : U16 :=
  s.sessState.bit ||| ((if s.faultCollision then 1#16 else 0#16) <<< 1)

/-- FAULT_COLLISION <- 1 (R190); no operation but reset clears it (R29). -/
def setCollision (s : State) : State := { s with faultCollision := true }

/-- `view(index)` of R34 and R201; `none` for the reserved indices. -/
def csrView (index : Byte) (s : State) : Option Nat :=
  match index.toNat with
  | 0x0 => some (statusWord s).toNat
  | 0x1 => some s.localPort.toNat
  | 0x2 => some s.remotePort.toNat
  | 0x3 => some s.nextCookie.toNat
  | 0x4 => some (pendingCount s)
  | 0x5 => some s.crcAcc.toNat
  | 0x6 => some s.now
  | _ => none

/-! ### Numeric codes ("The numeric values in this section are the spec's own") -/

def ResultCode.number : ResultCode → Nat
  | .ok => 0
  | .notOpen => 1
  | .tooLong => 2
  | .tableFull => 3
  | .collision => 4
  | .alreadyOpen => 5
  | .badConfig => 6
  | .illegalOp => 7
  | .illegalCsr => 8
  | .invalid => 9

def DecodeReason.number : DecodeReason → Nat
  | .tooShort => 1
  | .badStart => 2
  | .badEnd => 3
  | .badLength => 4
  | .badComplement => 5
  | .badCrc => 6

def CompletionKind.number : CompletionKind → Nat
  | .response => 0
  | .timeout => 1
  | .aborted => 2

def LogLevel.number : LogLevel → Nat
  | .debug => 0
  | .info => 1
  | .warn => 2
  | .error => 3

def LogEvent.number : LogEvent → Nat
  | .dropInvalid => 1
  | .dropUnmatched => 2
  | .dropClosed => 3

def StatusState.number : StatusState → Nat
  | .connecting => 0
  | .ok => 1
  | .connectionFailure => 2
  | .badConfig => 3

end Sys2Proof.Machine
end

