-- ==== Sys2Proof/Machine/Session.lean ====
section
/-! DEFINITION. The session demultiplexer (42_session_demux.md). -/

namespace Sys2Proof.Machine

/-- The detail text of the bad-config status (R182). -/
def remoteHostNotConfigured : Text :=
  .ofChars ['r', 'e', 'm', 'o', 't', 'e', ' ', 'h', 'o', 's', 't', ' ', 'n', 'o', 't', ' ',
    'c', 'o', 'n', 'f', 'i', 'g', 'u', 'r', 'e', 'd']

/-- OPEN: ALREADY_OPEN (R183), BAD_CONFIG (R182), else the session opens (R181). -/
def execOpenSession (localPort : U16) (s : State) : Host.Outcome State Fault Refusal :=
  match s.sessState with
  | .opened => .next (fail .alreadyOpen .absent s)
  | .closed =>
    match s.remoteHost with
    | none => .next (fail .badConfig .absent (emitStatus ⟨.badConfig, remoteHostNotConfigured⟩ s))
    | some _ =>
      .next (succeed (.num 0) (emitStatus ⟨.ok, []⟩ { s with sessState := .opened, localPort := localPort }))

/-- The completion CLOSE emits for an entry (R184, R203). -/
def abortOf (e : PtEntry) : Completion := ⟨e.cookie, .aborted, none⟩

/-- CLOSE: every pending request is aborted, in an open order (R184); nothing changes when CLOSED (R185). -/
def execCloseSession (s : State) : Host.Outcome State Fault Refusal :=
  match s.sessState with
  | .closed => .next (succeed (.num 0) s)
  | .opened =>
    .next (succeed (.num s.pt.length)
      (emitCpl ((closeOrder s).map abortOf) (drawn { s with pt := [], sessState := .closed, localPort := 0x0000#16 })))

/-- What SEND answers and what it leaves (R186 to R190): the record emitted on RESULT, and the state with it emitted. -/
def sendRequest (cmd : Byte) (payload : Bytes) (timeout : Nat) (s : State) : ResultRecord × State :=
  let answer (code : ResultCode) (value : Value) (t : State) : ResultRecord × State :=
    (⟨code, value⟩, emitResult code value t)
  if s.sessState = .closed then answer .notOpen .absent s
  else if payload.length > Config.maxPayload then answer .tooLong (.num payload.length) s
  else if pendingCount s ≥ s.params.nPending then answer .tableFull .absent s
  else
    let c := s.nextCookie
    let t := { s with nextCookie := c + 1#16 }
    if ptValid c s.pt then answer .collision (.num c.toNat) (setCollision t)
    else
      answer .ok (.num c.toNat)
        (emitTx ⟨s.remoteHost, s.remotePort, encodeFrame cmd c s.localPort payload⟩
          { t with pt := ptSet c (s.now + timeout) s.pt })

/-- SEND (R186). -/
def execSend (cmd : Byte) (payload : Bytes) (timeout : Nat) (s : State) : Host.Outcome State Fault Refusal :=
  .next (sendRequest cmd payload timeout s).2

/-- RECEIVE: routed purely by cookie (R192, R207); an invalid (R195), unmatched (R194) or late-delivered (R193)
datagram is dropped with a log record. -/
def execReceive (f : Bytes) (s : State) : Host.Outcome State Fault Refusal :=
  match s.sessState with
  | .closed => .next (emitLog ⟨.debug, .dropClosed, .length f.length⟩ s)
  | .opened =>
    match decodeFrame f with
    | .error r => .next (emitLog ⟨.warn, .dropInvalid, .reason r⟩ s)
    | .ok m =>
      if ptValid m.cookie s.pt then
        .next (emitCpl [⟨m.cookie, .response, some m⟩] { s with pt := ptClear m.cookie s.pt })
      else
        .next (emitLog ⟨.debug, .dropUnmatched, .cookie m.cookie⟩ s)

/-- TICK (R197): it emits nothing. -/
def execTick (s : State) : Host.Outcome State Fault Refusal := .next { s with now := s.now + 1 }

/-- The effect of EXPIRE c where it is enabled (R196). -/
def expireEntry (c : U16) (s : State) : State :=
  emitCpl [⟨c, .timeout, none⟩] { s with pt := ptClear c s.pt }

/-- EXPIRE c (R196). Where it is not enabled there is "no step" (95_test_vectors.md S-17): "the second trigger, finding
no entry, is a silent no-op" (R289 c) (log 8). -/
def execExpire (c : U16) (s : State) : Host.Outcome State Fault Refusal :=
  if expirable c s then .next (expireEntry c s) else .next s

/-- IO_ERROR (R199): one status record, the session is not closed. -/
def execIoError (detail : Text) (s : State) : Host.Outcome State Fault Refusal :=
  .next (emitStatus ⟨.connectionFailure, detail⟩ s)

/-- CFG_REMOTE (R200). -/
def execCfgRemote (host : Addr) (port : U16) (s : State) : Host.Outcome State Fault Refusal :=
  .next (succeed (.num 0) { s with remoteHost := some host, remotePort := port })

/-- CSR_READ (R201): ILLEGAL_CSR with the index where the view has none. -/
def execCsrRead (index : Byte) (s : State) : Host.Outcome State Fault Refusal :=
  match csrView index s with
  | some v => .next (succeed (.num v) s)
  | none => .next (fail .illegalCsr (.num index.toNat) s)

/-- What the block does when no agent presents anything: an enabled EXPIRE (which one is open), and with none enabled
it is idle (R196, R299) (log 7). -/
def ownStep (s : State) : State :=
  match expireChoice s with
  | some e => expireEntry e.cookie (drawn s)
  | none => s

/-! ### Reserved op codes (R102): "The block emits Result(ILLEGAL_OP) and changes no other state" -/

def illegalOp (s : State) : Host.Outcome State Fault Refusal := .next (fail .illegalOp .absent s)

/-- Op 0x0. -/
def execReserved0 (s : State) : Host.Outcome State Fault Refusal := illegalOp s

/-- Op 0xE. -/
def execReservedE (s : State) : Host.Outcome State Fault Refusal := illegalOp s

/-- Op 0xF. -/
def execReservedF (s : State) : Host.Outcome State Fault Refusal := illegalOp s

end Sys2Proof.Machine
end

