-- ==== Sys2Proof/Machine/HostPrograms.lean ====
section
/-! DEFINITION. The host programs over SEND and CPL (43_host_operations.md): the request command codes of 30_encoding.md
R98 start them, the response codes finish them; and the reset input (70_reset_and_hazards.md R320 to R322). -/

namespace Sys2Proof.Machine

/-! ### Codes (R98, R99) -/

def cmdPing : Byte := 0x00#8
def cmdReadgm : Byte := 0x01#8
def cmdWriteoutmute : Byte := 0x03#8
def cmdInfo : Byte := 0x0B#8
def cmdStandby : Byte := 0x0E#8

/-- RESP: the fixed table of R98, "not a formula" (R99); no code for any other command (R251). -/
def responseCode (cmd : Byte) : Option Byte :=
  if cmd = cmdPing then some 0xFF#8
  else if cmd = cmdReadgm then some 0xFE#8
  else if cmd = cmdWriteoutmute then some 0xFC#8
  else if cmd = cmdInfo then some 0xF4#8
  else if cmd = cmdStandby then some 0xF1#8
  else none

/-- The command a host program sends. -/
def HostCallKind.command : HostCallKind → Byte
  | .ping => cmdPing
  | .getInfo => cmdInfo
  | .getChannelCount => cmdReadgm
  | .getStandbyStatus => cmdStandby
  | .setStandbyStatus _ => cmdStandby
  | .setOutputMute _ _ => cmdWriteoutmute

/-- What a failing host program returns: "`false` (boolean operations) or `none` (operations with a result)" (R241). -/
def HostCallKind.failure : HostCallKind → HostValue
  | .ping => .bool false
  | .getInfo => .info none
  | .getChannelCount => .channelCount none
  | .getStandbyStatus => .standby none
  | .setStandbyStatus _ => .bool false
  | .setOutputMute _ _ => .bool false

/-! ### Reading replies -/

/-- The bytes before the first 0x00 (R244). -/
def untilNul : Bytes → Bytes
  | [] => []
  | b :: s => if b = 0#8 then [] else b :: untilNul s

/-- `field(p, k)` (R244): at most 31 bytes of slot k, never a NUL. -/
def infoField (p : Bytes) (k : Nat) : Bytes := untilNul (slice p (32 * k) (32 * k + 31))

/-- getInfo's check and result (R243). -/
def readInfo (p : Bytes) : Option AmpInfo :=
  if p.length < 128 then none else some ⟨infoField p 0, infoField p 1, infoField p 2, infoField p 3⟩

/-- getChannelCount's checks and result (R245). -/
def readChannelCount (p : Bytes) : Option Byte :=
  if p.length < 52 ∨ byteAt p 0 ≠ 1#8 then none else some (byteAt p 1)

/-- getStandbyStatus's checks and result (R246). -/
def readStandbyStatus (p : Bytes) : Option StandbyStatus :=
  if p.length < 4 ∨ byteAt p 0 ≠ 1#8 then none
  else some ⟨decide (byteAt p 1 = 2#8), decide (byteAt p 1 = 1#8)⟩

/-- The power state (R247). -/
inductive PowerState
  | online
  | standby
  | unknown
deriving DecidableEq, Repr

def powerState : Option StandbyStatus → PowerState
  | none => .unknown
  | some ⟨true, _⟩ => .online
  | some ⟨false, true⟩ => .standby
  | some ⟨false, false⟩ => .unknown

/-- setStandbyStatus's check (R248). -/
def standbyAccepted (p : Bytes) : Bool := decide (1 ≤ p.length ∧ byteAt p 0 = 1#8)

/-- setOutputMute's checks with the echoes at given offsets (R249). -/
def muteAccepted (chOff muteOff : Nat) (channel : Byte) (mute : Bool) (p : Bytes) : Bool :=
  decide (byteAt p 0 = 1#8 ∧ max chOff muteOff < p.length ∧ byteAt p chOff = channel
    ∧ byteAt p muteOff = boolByte mute)

/-! ### Requests -/

/-- The request half of a host program (R240, R241): one SEND; on OK the call waits for its cookie's completion, on any
other code it has failed. The RESULT record stays on its port for the host to consume (log 15). -/
def startCall (kind : HostCallKind) (payload : Bytes) (timeout : Option Nat) (s : State) : State :=
  let (r, t) := sendRequest kind.command payload (timeout.getD Config.timeoutDefault) s
  match r.code with
  | .ok => { t with hostCalls := t.hostCalls ++ [⟨s.nextCookie, kind⟩] }
  | code =>
    { t with hostReturns := t.hostReturns ++ [⟨kind, kind.failure⟩],
             logSink := t.logSink ++ [.host ⟨kind, .sendFailed code⟩] }

/-- PING: ping() sends an empty payload (R242). -/
def execPing (timeout : Option Nat) (s : State) : Host.Outcome State Fault Refusal :=
  .next (startCall .ping [] timeout s)

/-- READGM: getChannelCount() sends READGM_REQ_PAYLOAD (R245). -/
def execReadgm (timeout : Option Nat) (s : State) : Host.Outcome State Fault Refusal :=
  .next (startCall .getChannelCount s.params.readgmReqPayload timeout s)

/-- WRITEOUTMUTE: setOutputMute sends [channel, m, 00, 00] (R249). -/
def execWriteoutmute (channel : Byte) (mute : Bool) (timeout : Option Nat) (s : State) :
    Host.Outcome State Fault Refusal :=
  .next (startCall (.setOutputMute channel mute) [channel, boolByte mute, 0#8, 0#8] timeout s)

/-- INFO: getInfo() sends INFO_REQ_PAYLOAD (R243). -/
def execInfo (timeout : Option Nat) (s : State) : Host.Outcome State Fault Refusal :=
  .next (startCall .getInfo s.params.infoReqPayload timeout s)

/-- Which host program a STANDBY request belongs to (R246, R248). -/
def standbyCall : StandbyAction → HostCallKind
  | .read => .getStandbyStatus
  | .turnOn => .setStandbyStatus true
  | .turnOff => .setStandbyStatus false

/-- STANDBY: a 4-byte payload whose first byte is 0 to read (R246), 1 to turn on, 2 to turn off (R248). -/
def execStandby (action : StandbyAction) (timeout : Option Nat) (s : State) : Host.Outcome State Fault Refusal :=
  .next (startCall (standbyCall action) [action.byte, 0#8, 0#8, 0#8] timeout s)

/-! ### Completions -/

/-- The common checks of `request` on a completion (R241): its payload, or why the call failed. -/
def replyPayload (kind : HostCallKind) (k : Completion) : Except HostLogCause Bytes :=
  match k.kind, k.msg with
  | .response, some m =>
    if responseCode kind.command = some m.command then .ok m.payload else .error (.wrongCommand m.command)
  | knd, _ => .error (.notResponse knd)

/-- The end of a host program: `read` is its own check of the payload and its result. -/
def judge (kind : HostCallKind) (read : Bytes → Option HostValue) (k : Completion) :
    Except HostLogCause HostValue :=
  match replyPayload kind k with
  | .ok p =>
    match read p with
    | some v => .ok v
    | none => .error .badPayload
  | .error e => .error e

/-- The oldest outstanding call of a cookie. -/
def callOf (c : U16) : List HostCall → Option HostCall
  | [] => none
  | h :: l => if h.cookie = c then some h else callOf c l

/-- The outstanding calls without the oldest of a cookie. -/
def dropCall (c : U16) : List HostCall → List HostCall
  | [] => []
  | h :: l => if h.cookie = c then l else h :: dropCall c l

/-- A host program returns: a value, or on failure its failure value and a line in the host's log (R241), which is the
sink of the block's own records (R284). -/
def returnFrom (kind : HostCallKind) (r : Except HostLogCause HostValue) (s : State) : State :=
  match r with
  | .ok v => { s with hostReturns := s.hostReturns ++ [⟨kind, v⟩] }
  | .error e =>
    { s with hostReturns := s.hostReturns ++ [⟨kind, kind.failure⟩],
             logSink := s.logSink ++ [.host ⟨kind, e⟩] }

/-- The completion half of a host program: `k <- WAIT CPL c`, then its checks (R241). `reader` gives a call's own check
where the call belongs to this row. With no such call outstanding nobody waits, and with no completion for it the call
goes on waiting: nothing changes (logs 13, 16, 23). -/
def finishCall (reader : HostCallKind → Option (Bytes → Option HostValue)) (c : U16) (s : State) : State :=
  match callOf c s.hostCalls with
  | none => s
  | some h =>
    match reader h.kind with
    | none => s
    | some read =>
      match nextCompletion c s with
      | none => s
      | some (k, t) => returnFrom h.kind (judge h.kind read k) { t with hostCalls := dropCall c s.hostCalls }

/-- ping: "The payload of the reply is not examined" (R242). -/
def pingReader : HostCallKind → Option (Bytes → Option HostValue)
  | .ping => some fun _ => some (.bool true)
  | .getInfo => none
  | .getChannelCount => none
  | .getStandbyStatus => none
  | .setStandbyStatus _ => none
  | .setOutputMute _ _ => none

/-- getChannelCount (R245). -/
def readgmReader : HostCallKind → Option (Bytes → Option HostValue)
  | .getChannelCount => some fun p => (readChannelCount p).map fun n => .channelCount (some n)
  | .ping => none
  | .getInfo => none
  | .getStandbyStatus => none
  | .setStandbyStatus _ => none
  | .setOutputMute _ _ => none

/-- setOutputMute (R249), with the echo offsets the spec leaves OPEN (log 4). -/
def writeoutmuteReader : HostCallKind → Option (Bytes → Option HostValue)
  | .setOutputMute channel mute => some fun p =>
    if muteAccepted Config.muteEchoChOff Config.muteEchoMuteOff channel mute p then some (.bool true) else none
  | .ping => none
  | .getInfo => none
  | .getChannelCount => none
  | .getStandbyStatus => none
  | .setStandbyStatus _ => none

/-- getInfo (R243). -/
def infoReader : HostCallKind → Option (Bytes → Option HostValue)
  | .getInfo => some fun p => (readInfo p).map fun i => .info (some i)
  | .ping => none
  | .getChannelCount => none
  | .getStandbyStatus => none
  | .setStandbyStatus _ => none
  | .setOutputMute _ _ => none

/-- getStandbyStatus (R246) and setStandbyStatus (R248). -/
def standbyReader : HostCallKind → Option (Bytes → Option HostValue)
  | .getStandbyStatus => some fun p => (readStandbyStatus p).map fun r => .standby (some r)
  | .setStandbyStatus _ => some fun p => if standbyAccepted p then some (.bool true) else none
  | .ping => none
  | .getInfo => none
  | .getChannelCount => none
  | .setOutputMute _ _ => none

/-- PING_RESPONSE (R242). -/
def execPingResponse (c : U16) (s : State) : Host.Outcome State Fault Refusal :=
  .next (finishCall pingReader c s)

/-- READGM_RESPONSE (R245). -/
def execReadgmResponse (c : U16) (s : State) : Host.Outcome State Fault Refusal :=
  .next (finishCall readgmReader c s)

/-- WRITEOUTMUTE_RESPONSE (R249). -/
def execWriteoutmuteResponse (c : U16) (s : State) : Host.Outcome State Fault Refusal :=
  .next (finishCall writeoutmuteReader c s)

/-- INFO_RESPONSE (R243). -/
def execInfoResponse (c : U16) (s : State) : Host.Outcome State Fault Refusal :=
  .next (finishCall infoReader c s)

/-- STANDBY_RESPONSE (R246, R248). -/
def execStandbyResponse (c : U16) (s : State) : Host.Outcome State Fault Refusal :=
  .next (finishCall standbyReader c s)

/-! ### Reset -/

/-- The registers at their reset values (R321): no port is emptied, no record emitted. -/
def resetRegisters (s : State) : State :=
  { s with
    crcAcc := 0x0000#16
    sessState := .closed
    localPort := 0x0000#16
    remoteHost := none
    remotePort := Config.remotePortDefault
    nextCookie := s.params.cookieReset
    now := 0
    faultCollision := false
    pt := [] }

/-- Whether a call's request is still pending in the block. -/
def callPending (s : State) (h : HostCall) : Bool := ptValid h.cookie s.pt

/-- The host's calls whose requests the reset loses: "A host that resets the block must resolve its own waits for those
cookies as aborted" (R322) (log 17). -/
def resolveLost (s : State) : State :=
  let lost := s.hostCalls.filter (callPending s)
  { s with
    hostCalls := s.hostCalls.filter fun h => !callPending s h
    hostReturns := s.hostReturns ++ lost.map fun h => ⟨h.kind, h.kind.failure⟩
    logSink := s.logSink ++ lost.map fun h => .host ⟨h.kind, .lostAtReset⟩ }

/-- The reset input (R320 to R322). -/
def execReset (s : State) : Host.Outcome State Fault Refusal := .next (resetRegisters (resolveLost s))

end Sys2Proof.Machine
end

