-- ==== Sys2Proof/Machine/Dispatch.lean ====
section
/-! DEFINITION. One arm per constructor of Instr. -/

namespace Sys2Proof.Machine

def exec (i : Instr) (s : State) : Host.Outcome State Fault Refusal :=
  match i with
  | .crcClear => Sys2Proof.Machine.execCrcClear s
  | .crcUpdate d => Sys2Proof.Machine.execCrcUpdate d s
  | .crcRead => Sys2Proof.Machine.execCrcRead s
  | .encode cmd cookie port payload => Sys2Proof.Machine.execEncode cmd cookie port payload s
  | .decode frame => Sys2Proof.Machine.execDecode frame s
  | .openSession localPort => Sys2Proof.Machine.execOpenSession localPort s
  | .closeSession => Sys2Proof.Machine.execCloseSession s
  | .send cmd payload timeout => Sys2Proof.Machine.execSend cmd payload timeout s
  | .receive frame => Sys2Proof.Machine.execReceive frame s
  | .tick => Sys2Proof.Machine.execTick s
  | .ioError detail => Sys2Proof.Machine.execIoError detail s
  | .cfgRemote host port => Sys2Proof.Machine.execCfgRemote host port s
  | .csrRead index => Sys2Proof.Machine.execCsrRead index s
  | .reserved0 => Sys2Proof.Machine.execReserved0 s
  | .reservedE => Sys2Proof.Machine.execReservedE s
  | .reservedF => Sys2Proof.Machine.execReservedF s
  | .expire c => Sys2Proof.Machine.execExpire c s
  | .reset => Sys2Proof.Machine.execReset s
  | .ping timeout => Sys2Proof.Machine.execPing timeout s
  | .readgm timeout => Sys2Proof.Machine.execReadgm timeout s
  | .writeoutmute channel mute timeout => Sys2Proof.Machine.execWriteoutmute channel mute timeout s
  | .info timeout => Sys2Proof.Machine.execInfo timeout s
  | .standby action timeout => Sys2Proof.Machine.execStandby action timeout s
  | .pingResponse c => Sys2Proof.Machine.execPingResponse c s
  | .readgmResponse c => Sys2Proof.Machine.execReadgmResponse c s
  | .writeoutmuteResponse c => Sys2Proof.Machine.execWriteoutmuteResponse c s
  | .infoResponse c => Sys2Proof.Machine.execInfoResponse c s
  | .standbyResponse c => Sys2Proof.Machine.execStandbyResponse c s

end Sys2Proof.Machine
end

