-- ==== Sys2Proof/Machine/Step.lean ====
section
/-! DEFINITION. One step: the next input is taken from the list of coming inputs and has its effect (00_scope.md R5,
20_memory.md R66). -/

namespace Sys2Proof.Machine

/-- One atomic step (R66). A presented record is decoded and its instruction executed; the machine fetches nothing else
(R28). With no input left only the block's own EXPIRE can move (log 7). -/
def step (s : State) : Host.Outcome State Fault Refusal :=
  match s.inputs with
  | [] => .next (ownStep s)
  | .present line record :: rest =>
    match decode line record with
    | .ok i => exec i { s with inputs := rest }
    | .error e => .refused (.cannotBePresented e)
  | .takeFront p :: rest => .next (takeFront p { s with inputs := rest })
  | .waitCpl c :: rest => .next (waitCpl c { s with inputs := rest })
  | .toggleMute _ :: _ => .refused .toggleMute

/-- The state in which the very next step runs the instruction of a table word: its record stands first among the
coming inputs (log 6: a program is presented from outside the machine). -/
def State.withFetchWord (s : State) (nbits w : Nat) : State :=
  { s with inputs := .present (tableLine w) (tableRecord nbits w) :: s.inputs }

end Sys2Proof.Machine
end

