-- ==== Sys2Proof/Machine/Pseudo.lean ====
section
/-! DEFINITION. The pseudo-operations of 30_encoding.md R105, each as the operations it expands to, and the execution of
a list of instructions with no other agent between them. -/

namespace Sys2Proof.Machine

/-- The instructions one after the other, stopping where one has no next state. -/
def execAll : List Instr → State → Host.Outcome State Fault Refusal
  | [], s => .next s
  | i :: p, s =>
    match exec i s with
    | .next t => execAll p t
    | .fault f => .fault f
    | .refused r => .refused r

/-- `CRC16 [b0 ... bk]` (R105). -/
def crc16Ops (s : Bytes) : List Instr := .crcClear :: (s.map .crcUpdate ++ [.crcRead])

/-- `CONNECT host, port, local_port` (R105). -/
def connectOps (host : Addr) (port localPort : U16) : List Instr := [.cfgRemote host port, .openSession localPort]

/-- `REQUEST cmd, payload` (R105): a SEND with TIMEOUT_DEFAULT. -/
def requestOps (cmd : Byte) (payload : Bytes) : List Instr := [.send cmd payload Config.timeoutDefault]

end Sys2Proof.Machine
end

