-- ==== Sys2Proof/Safety.lean ====
section
/-! DEFINITION. What claims about PSA-PE are stated in: safe runs, the invariant, counts of requests and completions,
and the two halves of a host program. -/

namespace Sys2Proof

/-- The instructions that issue one SEND: SEND and the requests of the host programs (R240). -/
def Instr.issuesSend : Instr → Bool
  | .send _ _ _ => true
  | .ping _ => true
  | .readgm _ => true
  | .writeoutmute _ _ _ => true
  | .info _ => true
  | .standby _ _ => true
  | .crcClear => false
  | .crcUpdate _ => false
  | .crcRead => false
  | .encode _ _ _ _ => false
  | .decode _ => false
  | .openSession _ => false
  | .closeSession => false
  | .receive _ => false
  | .tick => false
  | .ioError _ => false
  | .cfgRemote _ _ => false
  | .csrRead _ => false
  | .reserved0 => false
  | .reservedE => false
  | .reservedF => false
  | .expire _ => false
  | .reset => false
  | .pingResponse _ => false
  | .readgmResponse _ => false
  | .writeoutmuteResponse _ => false
  | .infoResponse _ => false
  | .standbyResponse _ => false

/-- The instructions in which a host program takes a completion record from CPL (R104 WAIT CPL). -/
def Instr.takesCompletion : Instr → Bool
  | .pingResponse _ => true
  | .readgmResponse _ => true
  | .writeoutmuteResponse _ => true
  | .infoResponse _ => true
  | .standbyResponse _ => true
  | .crcClear => false
  | .crcUpdate _ => false
  | .crcRead => false
  | .encode _ _ _ _ => false
  | .decode _ => false
  | .openSession _ => false
  | .closeSession => false
  | .send _ _ _ => false
  | .receive _ => false
  | .tick => false
  | .ioError _ => false
  | .cfgRemote _ _ => false
  | .csrRead _ => false
  | .reserved0 => false
  | .reservedE => false
  | .reservedF => false
  | .expire _ => false
  | .reset => false
  | .ping _ => false
  | .readgm _ => false
  | .writeoutmute _ _ _ => false
  | .info _ => false
  | .standby _ _ => false

end Sys2Proof

namespace Sys2Proof.Machine

/-- A run the spec speaks for: "Claims assume the bit is clear" (60_exceptions.md R286, 93_implementation_defined.md I1). -/
def CollisionFree (s : State) : Prop := s.faultCollision = false

/-- A completion record has its message exactly when its kind is RESPONSE, and then the message's cookie is the
record's (R203). -/
def completionWf (k : Completion) : Prop :=
  match k.kind with
  | .response => ∃ m, k.msg = some m ∧ m.cookie = k.cookie
  | .timeout => k.msg = none
  | .aborted => k.msg = none

/-- A datagram goes to a configured host and is a valid frame (R205, R186). -/
def datagramWf (d : Datagram) : Prop := d.dstHost ≠ none ∧ ∃ m, decodeFrame d.bytes = .ok m

/-- The invariant of the machine. -/
structure Inv (s : State) : Prop where
  /-- PT is in canonical form: one entry per cookie (R26) -/
  table : ptWf s.pt
  /-- "in state CLOSED no PT entry is valid" (R180) -/
  closedEmpty : s.sessState = .closed → s.pt = []
  /-- "In state CLOSED it reads 0x0000" (R23) -/
  closedPort : s.sessState = .closed → s.localPort = 0#16
  /-- an open session has a remote host (R182, R200) -/
  openRemote : s.sessState = .opened → s.remoteHost ≠ none
  /-- "At most N_PENDING entries are valid at once" (R26) -/
  capacity : pendingCount s ≤ s.params.nPending
  /-- every completion record, on CPL or kept by the host, has the form of R203 -/
  completions : ∀ k ∈ s.hostKept ++ s.cpl, completionWf k
  /-- every datagram is a valid frame to a configured host (R205) -/
  datagrams : ∀ d ∈ s.tx, datagramWf d

/-- 1 where a request with cookie c is pending, else 0. -/
def pendingOf (c : U16) (s : State) : Nat := if ptValid c s.pt then 1 else 0

/-- The completions for cookie c on the CPL port. -/
def completionsOf (c : U16) (s : State) : Nat := s.cpl.countP fun k => decide (k.cookie = c)

/-- The frames with cookie c on the TX port. -/
def sentOf (c : U16) (s : State) : Nat := s.tx.countP fun d => decide (le16 d.bytes 2 = c)

/-- What WAIT CPL does for cookie c (R104): it takes record k and leaves t. The records are taken from CPL's front in
order (R31), those of other cookies being kept by the host, which is the model's choice (log 16, DESIGN CHOICE): k is the
oldest record of c the host has kept; or, where it has kept none, the first of c on CPL, and the records before it are
kept. -/
def TakesNext (c : U16) (s : State) (k : Completion) (t : State) : Prop :=
  (∃ front back, s.hostKept = front ++ k :: back ∧ (∀ x ∈ front, x.cookie ≠ c) ∧ k.cookie = c ∧
    t = { s with hostKept := front ++ back }) ∨
  ((∀ x ∈ s.hostKept, x.cookie ≠ c) ∧
    ∃ front back, s.cpl = front ++ k :: back ∧ (∀ x ∈ front, x.cookie ≠ c) ∧ k.cookie = c ∧
      t = { s with cpl := back, hostKept := s.hostKept ++ front })

/-- The request half of a host program (R240, R241), with the model's choices of log 12 (the half as one instruction),
log 15 (the RESULT record stays on its port) and log 26 (what the log line says): where the session is open, the payload and the table leave room and
the next cookie is not pending, the instruction registers and transmits its request as SEND does (R186), with T the
caller's timeout or TIMEOUT_DEFAULT, and the call is outstanding for its cookie. Where the SEND of the same operands
answers another code than OK, the instruction leaves what that SEND leaves, returns `failure` and writes one line in the
host's logging sink. -/
def StartsHostCall (i : Option Nat → Instr) (kind : HostCallKind) (cmd : Byte) (payload : Params → Bytes)
    (failure : HostValue) : Prop :=
  ∀ (timeout : Option Nat) (s : State),
    (s.sessState = .opened → (payload s.params).length ≤ 65535 → pendingCount s < s.params.nPending →
      ptValid s.nextCookie s.pt = false →
      ∃ pt' : List PtEntry,
        (∀ c, ptLookup c pt' =
          if c = s.nextCookie then some (s.now + timeout.getD Config.timeoutDefault) else ptLookup c s.pt) ∧
        exec (i timeout) s = .next { s with
          nextCookie := BitVec.ofNat 16 (s.nextCookie.toNat + 1)
          pt := pt'
          tx := s.tx ++ [⟨s.remoteHost, s.remotePort, encodeFrame cmd s.nextCookie s.localPort (payload s.params)⟩]
          result := s.result ++ [⟨.ok, .num s.nextCookie.toNat⟩]
          hostCalls := s.hostCalls ++ [⟨s.nextCookie, kind⟩] }) ∧
    (∀ (u : State) (r : ResultRecord),
      exec (.send cmd (payload s.params) (timeout.getD Config.timeoutDefault)) s = .next u →
      u.result = s.result ++ [r] → r.code ≠ .ok →
      exec (i timeout) s = .next { u with
        hostReturns := s.hostReturns ++ [⟨kind, failure⟩]
        logSink := s.logSink ++ [.host ⟨kind, .sendFailed r.code⟩] })

/-- A completion with which a host program succeeds with value v: a RESPONSE whose command is `code` and whose payload
passes the program's own check (R241). -/
def Succeeds (code : Byte) (read : Bytes → Option HostValue) (k : Completion) (v : HostValue) : Prop :=
  ∃ m, k.kind = .response ∧ k.msg = some m ∧ m.command = code ∧ read m.payload = some v

/-- The completion half of a host program (R241), with the model's choices of log 13 (the half as one instruction),
log 16 (which records the host takes and keeps), log 23 (of several calls of cookie c, the oldest is the one that
returns) and log 26 (what the log line says): the call takes the next completion record for c; it returns the value of
its own check, or `failure` and a line in the host's logging sink. Nothing else changes. -/
def FinishesHostCall (i : U16 → Instr) (kind : HostCallKind) (code : Byte) (read : Bytes → Option HostValue)
    (failure : HostValue) : Prop :=
  ∀ (c : U16) (s t : State) (before after : List HostCall) (k : Completion),
    s.hostCalls = before ++ ⟨c, kind⟩ :: after → (∀ h ∈ before, h.cookie ≠ c) → TakesNext c s k t →
    (∀ v, Succeeds code read k v → exec (i c) s = .next { t with
      hostCalls := before ++ after
      hostReturns := s.hostReturns ++ [⟨kind, v⟩] }) ∧
    ((∀ v, ¬ Succeeds code read k v) → ∃ cause, exec (i c) s = .next { t with
      hostCalls := before ++ after
      hostReturns := s.hostReturns ++ [⟨kind, failure⟩]
      logSink := s.logSink ++ [.host ⟨kind, cause⟩] })

end Sys2Proof.Machine
end

