-- ==== Sys2Proof/Certificates/Slice0/Obligations.lean ====
section
/-! DEFINITION. The statements for the provers. Each docstring names the rule of spec/ it formalises. -/

open Sys2Proof Sys2Proof.Machine

/-! ### Reset -/

/-- R321: the reset values, at power-on and after the RESET step from any state; the step keeps every record already
emitted and emits none. -/
def Obligations.ResetSetsEveryPieceOfState : Prop :=
  (∀ s : State, ∃ t, exec .reset s = .next t ∧
    t.crcAcc = 0x0000#16 ∧ t.sessState = .closed ∧ t.localPort = 0x0000#16 ∧ t.remoteHost = none ∧
    t.remotePort = 1234#16 ∧ t.nextCookie = s.params.cookieReset ∧ t.now = 0 ∧ t.faultCollision = false ∧
    (∀ c, ptValid c t.pt = false) ∧
    t.result = s.result ∧ t.tx = s.tx ∧ t.cpl = s.cpl ∧ t.log = s.log ∧ t.status = s.status ∧
    t.params = s.params ∧ t.inputs = s.inputs) ∧
  (State.reset.crcAcc = 0x0000#16 ∧ State.reset.sessState = .closed ∧ State.reset.localPort = 0x0000#16 ∧
    State.reset.remoteHost = none ∧ State.reset.remotePort = 1234#16 ∧ State.reset.nextCookie = 0x0000#16 ∧
    State.reset.now = 0 ∧ State.reset.faultCollision = false ∧ (∀ c, ptValid c State.reset.pt = false))

/-- R322 with log 17 (the model's reading): every outstanding call whose cookie is pending returns its failure value,
with a line in the host's logging sink (its words: log 26), once each and in the order of the calls; the other calls go
on waiting, in their order. -/
def Obligations.ResetResolvesTheHostsLostWaits : Prop :=
  ∀ s t : State, exec .reset s = .next t →
    let lost := s.hostCalls.filter fun h => ptValid h.cookie s.pt
    t.hostCalls = s.hostCalls.filter (fun h => !ptValid h.cookie s.pt) ∧
    t.hostReturns = s.hostReturns ++ lost.map (fun h => ⟨h.kind, h.kind.failure⟩) ∧
    t.logSink = s.logSink ++ lost.map fun h => .host ⟨h.kind, .lostAtReset⟩

/-! ### CRC functions and unit -/

/-- R130, R131, R132: the bit step, the byte step as eight bit steps, the sequence function from 0x0000 byte by byte. -/
def Obligations.CrcIsTheReflectedShiftRegister : Prop :=
  (∀ c : U16, (crcBit c).toNat = if c.toNat % 2 = 1 then (c.toNat / 2) ^^^ 0xA001 else c.toNat / 2) ∧
  (∀ (c : U16) (d : Byte), crcByte c d = crcBit^[8] (c ^^^ BitVec.ofNat 16 d.toNat)) ∧
  crc16 [] = 0x0000#16 ∧
  (∀ (s : Bytes) (d : Byte), crc16 (s ++ [d]) = crcByte (crc16 s) d)

/-- R136: the conformance vector. -/
def Obligations.CrcConformanceVector : Prop :=
  crc16 [0x31#8, 0x32#8, 0x33#8, 0x34#8, 0x35#8, 0x36#8, 0x37#8, 0x38#8, 0x39#8] = 0xBB3D#16

/-- R137, the spec's own inference ([derived]): linearity, leading zero bytes, residue. -/
def Obligations.CrcLinearityLeadingZeroAndResidue : Prop :=
  (∀ a b : Bytes, a.length = b.length → crc16 (List.zipWith (· ^^^ ·) a b) = crc16 a ^^^ crc16 b) ∧
  (∀ s : Bytes, crc16 (0x00#8 :: s) = crc16 s) ∧
  (∀ s : Bytes, crc16 (s ++ lebytes16 (crc16 s)) = 0x0000#16)

/-- R133, R135: CRC_CLEAR and CRC_READ, in every state, and all they change. -/
def Obligations.CrcClearAndReadComplete : Prop :=
  ∀ s : State,
    exec .crcClear s = .next { s with crcAcc := 0x0000#16, result := s.result ++ [⟨.ok, .num 0⟩] } ∧
    exec .crcRead s = .next { s with result := s.result ++ [⟨.ok, .num s.crcAcc.toNat⟩] }

/-- R134: CRC_UPDATE; and, the spec's own inference ([derived]), a CRC_CLEAR with updates of the bytes of a sequence
leaves CRC_ACC = crc16 of it. -/
def Obligations.CrcUpdatesAccumulateTheSequence : Prop :=
  (∀ (d : Byte) (s : State), exec (.crcUpdate d) s = .next { s with
    crcAcc := crcByte s.crcAcc d
    result := s.result ++ [⟨.ok, .num (crcByte s.crcAcc d).toNat⟩] }) ∧
  (∀ (b : Bytes) (s : State), ∃ rs, execAll (.crcClear :: b.map .crcUpdate) s =
    .next { s with crcAcc := crc16 b, result := s.result ++ rs })

/-- R139: the CRC unit on one side, the codec and the session on the other, have no effect on each other. -/
def Obligations.CrcUnitAndSessionDoNotInterfere : Prop :=
  (∀ (i : Instr) (s t : State) (v : U16), i ≠ .crcClear → (∀ d, i ≠ .crcUpdate d) → i ≠ .crcRead → i ≠ .reset →
    i ≠ .csrRead 5#8 → exec i s = .next t →
    t.crcAcc = s.crcAcc ∧ exec i { s with crcAcc := v } = .next { t with crcAcc := v }) ∧
  (∀ i : Instr, (i = .crcClear ∨ (∃ d, i = .crcUpdate d) ∨ i = .crcRead) →
    ∃ (acc : U16 → U16) (answer : U16 → ResultRecord), ∀ s : State,
      exec i s = .next { s with crcAcc := acc s.crcAcc, result := s.result ++ [answer s.crcAcc] })

/-! ### Frame codec -/

/-- R90, R92, R93: the frame's fields by offset, each 16-bit field low byte first. -/
def Obligations.EncodedFrameHasTheFieldsByOffset : Prop :=
  ∀ (cmd : Byte) (cookie port : U16) (p : Bytes), p.length ≤ 65535 →
    ∃ f, f = encodeFrame cmd cookie port p ∧
    f.length = 12 + p.length ∧
    f[0]? = some 0x02#8 ∧ f[1]? = some cmd ∧
    f[2]? = some (BitVec.ofNat 8 cookie.toNat) ∧ f[3]? = some (BitVec.ofNat 8 (cookie.toNat / 256)) ∧
    f[4]? = some (BitVec.ofNat 8 p.length) ∧ f[5]? = some (BitVec.ofNat 8 (p.length / 256)) ∧
    f[6]? = some (BitVec.ofNat 8 port.toNat) ∧ f[7]? = some (BitVec.ofNat 8 (port.toNat / 256)) ∧
    (f.drop 8).take p.length = p ∧
    f[8 + p.length]? = some (BitVec.ofNat 8 (crc16 p).toNat) ∧
    f[9 + p.length]? = some (BitVec.ofNat 8 ((crc16 p).toNat / 256)) ∧
    f[10 + p.length]? = some (BitVec.ofNat 8 (255 - cmd.toNat)) ∧
    f[11 + p.length]? = some 0x03#8

/-- R150, R151: ENCODE emits the frame, or TOO_LONG with the length, and changes nothing else. -/
def Obligations.EncodeEmitsTheFrameOrTooLong : Prop :=
  ∀ (cmd : Byte) (cookie port : U16) (p : Bytes) (s : State),
    (p.length ≤ 65535 → exec (.encode cmd cookie port p) s = .next { s with
      result := s.result ++ [⟨.ok, .frame ([0x02#8, cmd] ++ lebytes16 cookie ++ lebytes16 (BitVec.ofNat 16 p.length)
        ++ lebytes16 port ++ p ++ lebytes16 (crc16 p) ++ [~~~cmd, 0x03#8])⟩] }) ∧
    (65535 < p.length → exec (.encode cmd cookie port p) s = .next { s with
      result := s.result ++ [⟨.tooLong, .num p.length⟩] })

/-- R152, R153: DECODE applies the checks in order, the first that fails gives the reason; it changes nothing else. -/
def Obligations.DecodeReportsTheFirstFailingCheck : Prop :=
  ∀ (f : Bytes) (s : State),
    let answer (r : ResultRecord) : Prop := exec (.decode f) s = .next { s with result := s.result ++ [r] }
    let len : Nat := (le16 f 4).toNat
    let start : Prop := f[0]? = some 0x02#8
    let stop : Prop := f[f.length - 1]? = some 0x03#8
    let compl : Prop := f[10 + len]? = some (~~~ f.getD 1 0#8)
    let crc : Prop := le16 f (8 + len) = crc16 ((f.drop 8).take len)
    (f.length < 12 → answer ⟨.invalid, .reason .tooShort⟩) ∧
    (12 ≤ f.length → ¬ start → answer ⟨.invalid, .reason .badStart⟩) ∧
    (12 ≤ f.length → start → ¬ stop → answer ⟨.invalid, .reason .badEnd⟩) ∧
    (12 ≤ f.length → start → stop → f.length ≠ 12 + len → answer ⟨.invalid, .reason .badLength⟩) ∧
    (12 ≤ f.length → start → stop → f.length = 12 + len → ¬ compl → answer ⟨.invalid, .reason .badComplement⟩) ∧
    (12 ≤ f.length → start → stop → f.length = 12 + len → compl → ¬ crc → answer ⟨.invalid, .reason .badCrc⟩) ∧
    (12 ≤ f.length → start → stop → f.length = 12 + len → compl → crc →
      answer ⟨.ok, .message ⟨f.getD 1 0#8, le16 f 2, le16 f 6, (f.drop 8).take len⟩⟩)

/-- R155: the round-trip law of the frame codec. -/
def Obligations.FrameRoundTrip : Prop :=
  ∀ (cmd : Byte) (cookie port : U16) (p : Bytes), p.length ≤ 65535 →
    decodeFrame (encodeFrame cmd cookie port p) = .ok ⟨cmd, cookie, port, p⟩

/-- The other direction, derived from R90 and R152: a buffer decodes only if it is the encoding of its message. -/
def Obligations.ValidFramesAreExactlyTheEncodings : Prop :=
  ∀ (f : Bytes) (m : Message), decodeFrame f = .ok m →
    m.payload.length ≤ 65535 ∧ f = encodeFrame m.command m.cookie m.replyPort m.payload

/-- R158, the spec's own inference ([derived]): a buffer over 65547 bytes is never valid, and with right markers it
fails with BAD_LENGTH. -/
def Obligations.OverlongBuffersAreInvalid : Prop :=
  ∀ f : Bytes, 65547 < f.length →
    (∀ m, decodeFrame f ≠ .ok m) ∧
    (f[0]? = some 0x02#8 → f[f.length - 1]? = some 0x03#8 → decodeFrame f = .error .badLength)

/-- R157: what ENCODE and DECODE answer depends on their operands alone, and they write no register. -/
def Obligations.CodecIsPure : Prop :=
  (∀ (cmd : Byte) (cookie port : U16) (p : Bytes), ∃ r : ResultRecord, ∀ s : State,
    exec (.encode cmd cookie port p) s = .next { s with result := s.result ++ [r] }) ∧
  (∀ f : Bytes, ∃ r : ResultRecord, ∀ s : State, exec (.decode f) s = .next { s with result := s.result ++ [r] })

/-! ### Session -/

/-- R181, R182, R183: OPEN in its three cases, and all it changes. -/
def Obligations.OpenInItsThreeCases : Prop :=
  ∀ (p : U16) (s : State),
    (∀ h, s.sessState = .closed → s.remoteHost = some h → exec (.openSession p) s = .next { s with
      sessState := .opened
      localPort := p
      status := s.status ++ [⟨.ok, []⟩]
      result := s.result ++ [⟨.ok, .num 0⟩] }) ∧
    (s.sessState = .closed → s.remoteHost = none → exec (.openSession p) s = .next { s with
      status := s.status ++ [⟨.badConfig, Text.ofChars ['r', 'e', 'm', 'o', 't', 'e', ' ', 'h', 'o', 's', 't', ' ', 'n',
        'o', 't', ' ', 'c', 'o', 'n', 'f', 'i', 'g', 'u', 'r', 'e', 'd']⟩]
      result := s.result ++ [⟨.badConfig, .absent⟩] }) ∧
    (s.sessState = .opened → exec (.openSession p) s = .next { s with result := s.result ++ [⟨.alreadyOpen, .absent⟩] })

/-- R184, R185: CLOSE aborts every pending request in some order (the order is a free value, log 5), clears the table
and LOCAL_PORT, and changes nothing else of the machine (freeCount is the model's own draw counter); when CLOSED it
changes nothing. -/
def Obligations.CloseAbortsEveryPendingRequest : Prop :=
  ∀ s : State,
    (s.sessState = .opened → ∃ (order : List PtEntry) (n : Nat), order.Perm s.pt ∧
      exec .closeSession s = .next { s with
        cpl := s.cpl ++ order.map (fun e => ⟨e.cookie, .aborted, none⟩)
        pt := []
        sessState := .closed
        localPort := 0x0000#16
        result := s.result ++ [⟨.ok, .num (pendingCount s)⟩]
        freeCount := n }) ∧
    (s.sessState = .closed → exec .closeSession s = .next { s with result := s.result ++ [⟨.ok, .num 0⟩] })

/-- R186 with R187, R188 and R190, in its order of precedence: the refusals, which change nothing; the collision, which
sends nothing, keeps the old entry, advances the counter and sets the sticky fault; and the SEND that returns OK, which
registers its cookie with deadline NOW + timeout, transmits the frame to the configured remote and advances the counter.
-/
def Obligations.SendInItsFiveCases : Prop :=
  ∀ (cmd : Byte) (p : Bytes) (timeout : Nat) (s : State),
    (s.sessState = .closed →
      exec (.send cmd p timeout) s = .next { s with result := s.result ++ [⟨.notOpen, .absent⟩] }) ∧
    (s.sessState = .opened → 65535 < p.length →
      exec (.send cmd p timeout) s = .next { s with result := s.result ++ [⟨.tooLong, .num p.length⟩] }) ∧
    (s.sessState = .opened → p.length ≤ 65535 → s.params.nPending ≤ pendingCount s →
      exec (.send cmd p timeout) s = .next { s with result := s.result ++ [⟨.tableFull, .absent⟩] }) ∧
    (s.sessState = .opened → p.length ≤ 65535 → pendingCount s < s.params.nPending →
      ptValid s.nextCookie s.pt = true →
      exec (.send cmd p timeout) s = .next { s with
        nextCookie := BitVec.ofNat 16 (s.nextCookie.toNat + 1)
        faultCollision := true
        result := s.result ++ [⟨.collision, .num s.nextCookie.toNat⟩] }) ∧
    (s.sessState = .opened → p.length ≤ 65535 → pendingCount s < s.params.nPending →
      ptValid s.nextCookie s.pt = false →
      ∃ pt' : List PtEntry,
        (∀ c, ptLookup c pt' = if c = s.nextCookie then some (s.now + timeout) else ptLookup c s.pt) ∧
        exec (.send cmd p timeout) s = .next { s with
          nextCookie := BitVec.ofNat 16 (s.nextCookie.toNat + 1)
          pt := pt'
          tx := s.tx ++ [⟨s.remoteHost, s.remotePort, encodeFrame cmd s.nextCookie s.localPort p⟩]
          result := s.result ++ [⟨.ok, .num s.nextCookie.toNat⟩] })

/-- R191: NEXT_COOKIE advances by one, modulo 65536, exactly in a SEND that gets past the capacity check, and in no
other operation of the block; the cookie the SEND reports is the value before; the first is COOKIE_RESET = 0. -/
def Obligations.CookieCounterAdvancesOnlyOnAllocation : Prop :=
  (∀ (cmd : Byte) (p : Bytes) (timeout : Nat) (s t : State), exec (.send cmd p timeout) s = .next t →
    t.nextCookie.toNat =
      (if s.sessState = .opened ∧ p.length ≤ 65535 ∧ pendingCount s < s.params.nPending
        then (s.nextCookie.toNat + 1) % 65536 else s.nextCookie.toNat) ∧
    (∀ n, t.result = s.result ++ [⟨.ok, .num n⟩] → n = s.nextCookie.toNat)) ∧
  (∀ (i : Instr) (s t : State), i.issuesSend = false → i ≠ .reset → exec i s = .next t → t.nextCookie = s.nextCookie) ∧
  State.reset.nextCookie = 0x0000#16

/-- R206, the spec's own inference ([derived]): a SEND that returns OK gives a cookie that no pending request has, and
every request pending before is still pending with its deadline. -/
def Obligations.ConcurrentRequestsHaveDistinctCookies : Prop :=
  ∀ (cmd : Byte) (p : Bytes) (timeout n : Nat) (s t : State),
    exec (.send cmd p timeout) s = .next t → t.result = s.result ++ [⟨.ok, .num n⟩] →
    (∀ c d, ptLookup c s.pt = some d → c.toNat ≠ n ∧ ptLookup c t.pt = some d) ∧
    (∃ c : U16, c.toNat = n ∧ ptValid c t.pt = true)

/-- R192, R194, R195 when OPEN, R193 when CLOSED: RECEIVE in its four cases, and all it changes. -/
def Obligations.ReceiveInItsFourCases : Prop :=
  ∀ (f : Bytes) (s : State),
    (s.sessState = .closed → exec (.receive f) s =
      .next { s with log := s.log ++ [⟨.debug, .dropClosed, .length f.length⟩] }) ∧
    (∀ r, s.sessState = .opened → decodeFrame f = .error r → exec (.receive f) s =
      .next { s with log := s.log ++ [⟨.warn, .dropInvalid, .reason r⟩] }) ∧
    (∀ m, s.sessState = .opened → decodeFrame f = .ok m → ptValid m.cookie s.pt = false → exec (.receive f) s =
      .next { s with log := s.log ++ [⟨.debug, .dropUnmatched, .cookie m.cookie⟩] }) ∧
    (∀ m, s.sessState = .opened → decodeFrame f = .ok m → ptValid m.cookie s.pt = true →
      ∃ pt' : List PtEntry, (∀ c, ptLookup c pt' = if c = m.cookie then none else ptLookup c s.pt) ∧
        exec (.receive f) s = .next { s with
          pt := pt'
          cpl := s.cpl ++ [⟨m.cookie, .response, some m⟩] })

/-- R207: two valid frames with the same cookie have the same effect, whatever their command, reply port and payload and
whatever the configured remote: the table ends the same, and both complete or neither does. -/
def Obligations.DemultiplexerRoutesByCookieAlone : Prop :=
  ∀ (f g : Bytes) (m k : Message) (h : Option Addr) (port : U16) (s t u : State),
    decodeFrame f = .ok m → decodeFrame g = .ok k → m.cookie = k.cookie →
    exec (.receive f) s = .next t → exec (.receive g) { s with remoteHost := h, remotePort := port } = .next u →
    t.pt = u.pt ∧ t.cpl.map (·.cookie) = u.cpl.map (·.cookie) ∧ t.cpl.map (·.kind) = u.cpl.map (·.kind)

/-- R67, last part, the spec's own inference ([derived]) from R192 and R194: the second delivery of a datagram that
completed its request is dropped as unmatched. -/
def Obligations.DuplicateReplyIsDropped : Prop :=
  ∀ (f : Bytes) (m : Message) (s t : State), s.sessState = .opened → decodeFrame f = .ok m →
    ptValid m.cookie s.pt = true → exec (.receive f) s = .next t →
    exec (.receive f) t = .next { t with log := t.log ++ [⟨.debug, .dropUnmatched, .cookie m.cookie⟩] } ∧
    t.cpl = s.cpl ++ [⟨m.cookie, .response, some m⟩]

/-- R197, R199, R200: TICK, IO_ERROR and CFG_REMOTE, in every state, and all they change. -/
def Obligations.TickIoErrorAndCfgRemoteComplete : Prop :=
  ∀ s : State,
    exec .tick s = .next { s with now := s.now + 1 } ∧
    (∀ detail : Text, exec (.ioError detail) s =
      .next { s with status := s.status ++ [⟨.connectionFailure, detail⟩] }) ∧
    (∀ (h : Addr) (p : U16), exec (.cfgRemote h p) s = .next { s with
      remoteHost := some h
      remotePort := p
      result := s.result ++ [⟨.ok, .num 0⟩] })

/-- R196: an enabled EXPIRE c clears the entry, emits one TIMEOUT completion and changes nothing else; an entry is never
expired before its deadline. -/
def Obligations.ExpireCompletesADueEntry : Prop :=
  (∀ (c : U16) (d : Nat) (s : State), ptLookup c s.pt = some d → d ≤ s.now →
    ∃ pt' : List PtEntry, (∀ c', ptLookup c' pt' = if c' = c then none else ptLookup c' s.pt) ∧
      exec (.expire c) s = .next { s with pt := pt', cpl := s.cpl ++ [⟨c, .timeout, none⟩] }) ∧
  (∀ (c : U16) (s t : State), exec (.expire c) s = .next t → t.cpl ≠ s.cpl ∨ t.pt ≠ s.pt →
    ∃ d, ptLookup c s.pt = some d ∧ d ≤ s.now)

/-- Log 8 (DEDUCED from R196 and 95_test_vectors.md S-17): an EXPIRE that is not enabled changes nothing. -/
def Obligations.ExpireNotEnabledChangesNothing : Prop :=
  ∀ (c : U16) (s : State), (∀ d, ptLookup c s.pt = some d → s.now < d) → exec (.expire c) s = .next s

/-- R201 with the view of R34: every index, the reserved ones giving ILLEGAL_CSR with the index. -/
def Obligations.CsrReadGivesTheView : Prop :=
  ∀ (index : Byte) (s : State),
    let answer (r : ResultRecord) : Prop := exec (.csrRead index) s = .next { s with result := s.result ++ [r] }
    (index = 0x0#8 → answer ⟨.ok, .num ((if s.sessState = .opened then 1 else 0) +
      (if s.faultCollision = true then 2 else 0))⟩) ∧
    (index = 0x1#8 → answer ⟨.ok, .num s.localPort.toNat⟩) ∧
    (index = 0x2#8 → answer ⟨.ok, .num s.remotePort.toNat⟩) ∧
    (index = 0x3#8 → answer ⟨.ok, .num s.nextCookie.toNat⟩) ∧
    (index = 0x4#8 → answer ⟨.ok, .num (pendingCount s)⟩) ∧
    (index = 0x5#8 → answer ⟨.ok, .num s.crcAcc.toNat⟩) ∧
    (index = 0x6#8 → answer ⟨.ok, .num s.now⟩) ∧
    (6 < index.toNat → answer ⟨.illegalCsr, .num index.toNat⟩)

/-- The reserved op codes, decoded from their one-byte records (the layout is log 9's, DESIGN CHOICE), give ILLEGAL_OP
and change no other state (R102). -/
def Obligations.ReservedOpCodesAreIllegal : Prop :=
  decode .request [0x00#8] = .ok .reserved0 ∧ decode .request [0x0E#8] = .ok .reservedE ∧
  decode .request [0x0F#8] = .ok .reservedF ∧
  ∀ s : State, ∀ i ∈ [Instr.reserved0, .reservedE, .reservedF],
    exec i s = .next { s with result := s.result ++ [⟨.illegalOp, .absent⟩] }

/-! ### Whole-machine rules -/

/-- R280: no operation stops the block; every instruction answers a next state in every state. For an EXPIRE that is not
enabled that is log 8 (DEDUCED), and for a completion half with nothing to take log 13 (DESIGN CHOICE). -/
def Obligations.EveryInstructionCompletes : Prop :=
  ∀ (i : Instr) (s : State), ∃ t, exec i s = .next t

/-- R36, the spec's own inference ([derived]): the writers of each register, over all instructions (the host programs'
requests issue one SEND each). -/
def Obligations.RegistersHaveOnlyTheirWriters : Prop :=
  ∀ (i : Instr) (s t : State), exec i s = .next t →
    (t.crcAcc ≠ s.crcAcc → i = .crcClear ∨ (∃ d, i = .crcUpdate d) ∨ i = .reset) ∧
    (t.sessState ≠ s.sessState → (∃ p, i = .openSession p) ∨ i = .closeSession ∨ i = .reset) ∧
    (t.localPort ≠ s.localPort → (∃ p, i = .openSession p) ∨ i = .closeSession ∨ i = .reset) ∧
    (t.remoteHost ≠ s.remoteHost → (∃ h p, i = .cfgRemote h p) ∨ i = .reset) ∧
    (t.remotePort ≠ s.remotePort → (∃ h p, i = .cfgRemote h p) ∨ i = .reset) ∧
    (t.nextCookie ≠ s.nextCookie → i.issuesSend = true ∨ i = .reset) ∧
    (t.now ≠ s.now → i = .tick ∨ i = .reset) ∧
    (t.faultCollision ≠ s.faultCollision → i.issuesSend = true ∨ i = .reset) ∧
    (t.pt ≠ s.pt → i.issuesSend = true ∨ (∃ f, i = .receive f) ∨ (∃ c, i = .expire c) ∨ i = .closeSession ∨
      i = .reset) ∧
    t.params = s.params ∧ t.inputs = s.inputs

/-- R29: FAULT_COLLISION is set only by a SEND whose allocated cookie is pending, and no operation clears it. -/
def Obligations.CollisionFaultIsSticky : Prop :=
  ∀ (i : Instr) (s t : State), exec i s = .next t →
    (s.faultCollision = true → i ≠ .reset → t.faultCollision = true) ∧
    (s.faultCollision = false → t.faultCollision = true →
      i.issuesSend = true ∧ s.sessState = .opened ∧ ptValid s.nextCookie s.pt = true) ∧
    (i = .reset → t.faultCollision = false)

/-- R204: a SEND that returns OK emits exactly one datagram; a step that emits one is such a SEND, of a cookie that was
not pending and is the next of the counter, so no step emits another for a request already made. The SEND may be the one
of a host program's request, and what is said of its RESULT record then rests on logs 12 and 15 (DESIGN CHOICE). -/
def Obligations.EachRequestIsTransmittedOnce : Prop :=
  ∀ (i : Instr) (s t : State), exec i s = .next t →
    (i.issuesSend = true → (∃ n, t.result = s.result ++ [⟨.ok, .num n⟩]) → ∃ d, t.tx = s.tx ++ [d]) ∧
    (t.tx ≠ s.tx → i.issuesSend = true ∧
      (∃ d, t.tx = s.tx ++ [d] ∧ le16 d.bytes 2 = s.nextCookie ∧ d.dstHost = s.remoteHost ∧ d.dstPort = s.remotePort) ∧
      t.result = s.result ++ [⟨.ok, .num s.nextCookie.toNat⟩] ∧
      ptValid s.nextCookie s.pt = false ∧ ptValid s.nextCookie t.pt = true ∧
      t.nextCookie = BitVec.ofNat 16 (s.nextCookie.toNat + 1))

/-- R70, the spec's own inference ([derived]), and R31: records already on a port stay, in order, before those a step
emits; a host program takes records from CPL's front only. Those it does not return with it keeps, in order (log 16,
DESIGN CHOICE), and its request leaves RESULT its records (log 15, DESIGN CHOICE). -/
def Obligations.PortsKeepTheirOrder : Prop :=
  ∀ (i : Instr) (s t : State), exec i s = .next t →
    s.result <+: t.result ∧ s.tx <+: t.tx ∧ s.log <+: t.log ∧ s.status <+: t.status ∧
    (i.takesCompletion = false → s.cpl <+: t.cpl ∧ t.hostKept = s.hostKept) ∧
    (i.takesCompletion = true → t.cpl <:+ s.cpl ∧ (t.hostKept ++ t.cpl).Sublist (s.hostKept ++ s.cpl))

/-- R180: the session's transitions; and, the spec's own inference ([derived]), in state CLOSED no entry is valid. -/
def Obligations.SessionMovesOnlyByOpenCloseAndReset : Prop :=
  ∀ (i : Instr) (s t : State), exec i s = .next t →
    (s.sessState = .closed → t.sessState = .opened → ∃ p, i = .openSession p) ∧
    (s.sessState = .opened → t.sessState = .closed → i = .closeSession ∨ i = .reset) ∧
    ((s.sessState = .closed → ∀ c, ptValid c s.pt = false) → t.sessState = .closed → ∀ c, ptValid c t.pt = false)

/-- R202 a, the spec's own inference ([derived]), for one step: what clears a pending entry, and the completion each
clearing emits; no completion for a cookie is emitted otherwise. -/
def Obligations.APendingRequestIsResolvedByOneTrigger : Prop :=
  ∀ (i : Instr) (s t : State) (c : U16), ptWf s.pt → exec i s = .next t →
    (ptValid c s.pt = true → ptValid c t.pt = false →
      (∃ f m, i = .receive f ∧ decodeFrame f = .ok m ∧ m.cookie = c ∧ t.cpl = s.cpl ++ [⟨c, .response, some m⟩]) ∨
      (i = .expire c ∧ t.cpl = s.cpl ++ [⟨c, .timeout, none⟩]) ∨
      (i = .closeSession ∧ ∃ new, t.cpl = s.cpl ++ new ∧
        new.filter (fun k => decide (k.cookie = c)) = [⟨c, .aborted, none⟩]) ∨
      (i = .reset ∧ t.cpl = s.cpl)) ∧
    ((ptValid c s.pt = false ∨ ptValid c t.pt = true) → i.takesCompletion = false →
      completionsOf c t = completionsOf c s)

/-- R202 a, the spec's own inference ([derived]), and R204 along a run of instructions without reset, the completions
left on their port: for every cookie, the requests sent are the completions emitted and the one still pending. The
premise on the end of the run is R286's. -/
def Obligations.EveryRequestIsResolvedExactlyOnce : Prop :=
  ∀ (run : List Instr) (s t : State) (c : U16), ptWf s.pt → (∀ i ∈ run, i ≠ .reset ∧ i.takesCompletion = false) →
    execAll run s = .next t → CollisionFree t →
    pendingOf c t + completionsOf c t + sentOf c s = pendingOf c s + completionsOf c s + sentOf c t

/-- R330, the spec's own inference ([derived]): a TIMEOUT completion is emitted only for a pending request whose
deadline NOW has reached. -/
def Obligations.NoTimeoutBeforeTheDeadline : Prop :=
  ∀ (i : Instr) (s t : State) (new : List Completion) (k : Completion), exec i s = .next t →
    t.cpl = s.cpl ++ new → k ∈ new → k.kind = .timeout → ∃ d, ptLookup k.cookie s.pt = some d ∧ d ≤ s.now

/-- R289 c: a RECEIVE for cookie c and an EXPIRE c that are both enabled: whichever is first resolves the entry, the
second emits no completion. That the EXPIRE after the RECEIVE, no longer enabled, answers a next state and emits nothing
is log 8 (DEDUCED). -/
def Obligations.ResponseAndTimeoutRace : Prop :=
  ∀ (f : Bytes) (m : Message) (d : Nat) (s : State), s.sessState = .opened → decodeFrame f = .ok m →
    ptLookup m.cookie s.pt = some d → d ≤ s.now →
    (∃ t, execAll [.receive f, .expire m.cookie] s = .next t ∧ t.cpl = s.cpl ++ [⟨m.cookie, .response, some m⟩] ∧
      t.log = s.log ∧ ptValid m.cookie t.pt = false) ∧
    (∃ t, execAll [.expire m.cookie, .receive f] s = .next t ∧ t.cpl = s.cpl ++ [⟨m.cookie, .timeout, none⟩] ∧
      t.log = s.log ++ [⟨.debug, .dropUnmatched, .cookie m.cookie⟩] ∧ ptValid m.cookie t.pt = false)

/-- R27, the spec's own inference ([derived]): PENDING_COUNT is the number of cookies whose entry is valid, a value in
0..65536. -/
def Obligations.PendingCountCountsTheValidEntries : Prop :=
  ∀ s : State, ptWf s.pt →
    pendingCount s = (Finset.univ.filter fun n : Fin 65536 => ptValid (BitVec.ofFin n) s.pt = true).card ∧
    pendingCount s ≤ 65536

/-- The invariant holds at power-on. -/
def Obligations.InvariantHoldsAtReset : Prop := Inv State.reset

/-- Every step keeps the invariant: the canonical table, the closed session's empty table and zero port, the open
session's remote, the capacity, the form of every completion record and of every datagram. -/
def Obligations.EveryStepKeepsTheInvariant : Prop :=
  ∀ s t : State, Inv s → step s = .next t → Inv t

/-! ### The step -/

/-- Log 6 (DESIGN CHOICE): when the next input is a record that decodes to i, the step is exec of i with that input
taken from the list. -/
def Obligations.StepRunsTheDecodedInstruction : Prop :=
  ∀ (s : State) (line : Line) (record : Bytes) (rest : List Event) (i : Instr),
    s.inputs = .present line record :: rest → decode line record = .ok i →
    step s = exec i { s with inputs := rest }

/-- R31, R284, R104 with log 16 (DESIGN CHOICE): a consumer takes the front record of its port, which for LOG is then
the next line of the host's logging sink; and WAIT CPL takes the next completion of its cookie as `TakesNext` says. -/
def Obligations.ConsumersTakeTheNextRecord : Prop :=
  ∀ (s : State) (rest : List Event),
    (∀ r l, s.inputs = .takeFront .result :: rest → s.result = r :: l →
      step s = .next { s with inputs := rest, result := l }) ∧
    (∀ d l, s.inputs = .takeFront .tx :: rest → s.tx = d :: l → step s = .next { s with inputs := rest, tx := l }) ∧
    (∀ k l, s.inputs = .takeFront .cpl :: rest → s.cpl = k :: l → step s = .next { s with inputs := rest, cpl := l }) ∧
    (∀ r l, s.inputs = .takeFront .log :: rest → s.log = r :: l →
      step s = .next { s with inputs := rest, log := l, logSink := s.logSink ++ [.block r] }) ∧
    (∀ r l, s.inputs = .takeFront .status :: rest → s.status = r :: l →
      step s = .next { s with inputs := rest, status := l }) ∧
    (∀ c k t, s.inputs = .waitCpl c :: rest → TakesNext c { s with inputs := rest } k t → step s = .next t)

/-- R250: toggleMute is refused by name, in every state. -/
def Obligations.ToggleMuteIsRefused : Prop :=
  ∀ (s : State) (channel : Byte) (rest : List Event), s.inputs = .toggleMute channel :: rest →
    step s = .refused .toggleMute

/-- Log 7 (DESIGN CHOICE, with R196 and R299): with no input left, a step takes the EXPIRE of a due entry, and with none
due the state stays. -/
def Obligations.WithNoInputOnlyExpireMoves : Prop :=
  ∀ s : State, ptWf s.pt → s.inputs = [] →
    ((∀ e ∈ s.pt, s.now < e.deadline) → step s = .next s) ∧
    ((∃ e ∈ s.pt, e.deadline ≤ s.now) → ∃ e n, e ∈ s.pt ∧ e.deadline ≤ s.now ∧
      step s = exec (.expire e.cookie) { s with freeCount := n })

/-- R202 b within the model's scheduling (log 7, DESIGN CHOICE): left alone, the machine times out every due request,
each once, in as many steps as there are. -/
def Obligations.DueRequestsAllTimeOut : Prop :=
  ∀ s : State, ptWf s.pt → s.inputs = [] → ∃ (t : State) (order : List PtEntry),
    Host.Core.run Sys2Proof.core (dueEntries s).length s = .next t ∧
    order.Perm (dueEntries s) ∧ t.cpl = s.cpl ++ order.map (fun e => ⟨e.cookie, .timeout, none⟩) ∧
    t.pt = s.pt.filter (fun e => decide (s.now < e.deadline)) ∧ t.now = s.now

/-! ### Encoding -/

/-- With the record layout of log 9 (DESIGN CHOICE): decoding the record of a well-formed instruction gives it back, for
every constructor and operand. -/
def Obligations.DecodeOfEncode : Prop :=
  ∀ i : Instr, i.wellFormed = true → decode i.line (encode i) = .ok i

/-- With the record layout of log 9 (DESIGN CHOICE): every record that decodes is the record of the instruction it
decodes to, and that instruction is well-formed. -/
def Obligations.EncodeOfDecode : Prop :=
  ∀ (line : Line) (s : Bytes) (i : Instr), decode line s = .ok i →
    i.line = line ∧ encode i = s ∧ i.wellFormed = true

/-- R100, R98 with the record layout of log 9 (DESIGN CHOICE): words written out from the two code tables decode to
their instructions. -/
def Obligations.TableCodesDecode : Prop :=
  decode .request [0x01#8] = .ok .crcClear ∧ decode .request [0x02#8, 0x31#8] = .ok (.crcUpdate 0x31#8) ∧
  decode .request [0x03#8] = .ok .crcRead ∧
  decode .request [0x04#8, 0xAA#8, 0x34#8, 0x12#8, 0xCD#8, 0xAB#8, 0x01#8, 0x00#8] =
    .ok (.encode 0xAA#8 0x1234#16 0xABCD#16 [0x00#8]) ∧
  decode .request [0x05#8, 0x00#8] = .ok (.decode []) ∧
  decode .request [0x06#8, 0x50#8, 0xC3#8] = .ok (.openSession 50000#16) ∧
  decode .request [0x07#8] = .ok .closeSession ∧
  decode .request [0x08#8, 0x00#8, 0x00#8, 0x64#8] = .ok (.send 0x00#8 [] 100) ∧
  decode .request [0x09#8, 0x01#8, 0x02#8] = .ok (.receive [0x02#8]) ∧
  decode .request [0x0A#8] = .ok .tick ∧ decode .request [0x0B#8, 0x00#8] = .ok (.ioError []) ∧
  decode .request [0x0D#8, 0x02#8] = .ok (.csrRead 0x02#8) ∧
  decode .timer [0x05#8, 0x00#8] = .ok (.expire 5#16) ∧ decode .reset [] = .ok .reset ∧
  decode .command [0x00#8, 0x00#8] = .ok (.ping none) ∧ decode .command [0xF1#8, 0x01#8, 0x00#8] =
    .ok (.standbyResponse 1#16)

/-! ### Host programs -/

/-- R98, R99: the response codes are the fixed table, and no other command has one (R251). -/
def Obligations.ResponseCodesAreTheFixedTable : Prop :=
  ∀ cmd code : Byte, responseCode cmd = some code ↔
    (cmd, code) ∈ [(0x00#8, 0xFF#8), (0x01#8, 0xFE#8), (0x03#8, 0xFC#8), (0x0B#8, 0xF4#8), (0x0E#8, 0xF1#8)]

/-- R242: ping(), in the two halves of logs 12 and 13, with logs 15, 16, 23 and 26 (all DESIGN CHOICE). -/
def Obligations.PingProgram : Prop :=
  StartsHostCall .ping .ping 0x00#8 (fun _ => []) (.bool false) ∧
  FinishesHostCall .pingResponse .ping 0xFF#8 (fun _ => some (.bool true)) (.bool false)

/-- R243 with the slots of R244: getInfo(), in the two halves of logs 12 and 13, with logs 15, 16, 23 and 26 (all DESIGN
CHOICE). -/
def Obligations.GetInfoProgram : Prop :=
  StartsHostCall .info .getInfo 0x0B#8 (fun q => q.infoReqPayload) (.info none) ∧
  FinishesHostCall .infoResponse .getInfo 0xF4#8
    (fun p => if 128 ≤ p.length then
        some (.info (some ⟨infoField p 0, infoField p 1, infoField p 2, infoField p 3⟩))
      else none)
    (.info none)

/-- R244: `field(p, k)` is the slot up to its first 0x00, or its first 31 bytes when none of those is 0x00. -/
def Obligations.InfoFieldIsTheSlotUpToItsNul : Prop :=
  ∀ (p : Bytes) (k j : Nat), 128 ≤ p.length → k < 4 → j ≤ 31 →
    (∀ n < j, (p[32 * k + n]?) ≠ some 0x00#8) → (j = 31 ∨ p[32 * k + j]? = some 0x00#8) →
    infoField p k = (p.drop (32 * k)).take j

/-- R245: getChannelCount(), in the two halves of logs 12 and 13, with logs 15, 16, 23 and 26 (all DESIGN CHOICE). -/
def Obligations.GetChannelCountProgram : Prop :=
  StartsHostCall .readgm .getChannelCount 0x01#8 (fun q => q.readgmReqPayload) (.channelCount none) ∧
  FinishesHostCall .readgmResponse .getChannelCount 0xFE#8
    (fun p => if 52 ≤ p.length ∧ p.getD 0 0#8 = 1#8 then some (.channelCount (some (p.getD 1 0#8))) else none)
    (.channelCount none)

/-- R246: getStandbyStatus(), in the two halves of logs 12 and 13, with logs 15, 16, 23 and 26 (all DESIGN CHOICE). -/
def Obligations.GetStandbyStatusProgram : Prop :=
  StartsHostCall (.standby .read) .getStandbyStatus 0x0E#8 (fun _ => [0#8, 0#8, 0#8, 0#8]) (.standby none) ∧
  FinishesHostCall .standbyResponse .getStandbyStatus 0xF1#8
    (fun p => if 4 ≤ p.length ∧ p.getD 0 0#8 = 1#8 then
        some (.standby (some ⟨decide (p.getD 1 0#8 = 2#8), decide (p.getD 1 0#8 = 1#8)⟩))
      else none)
    (.standby none)

/-- R248: setStandbyStatus(turnOn), its action byte 1 to turn on and 2 to turn off, in the two halves of logs 12 and 13,
with logs 15, 16, 23 and 26 (all DESIGN CHOICE). -/
def Obligations.SetStandbyStatusProgram : Prop :=
  StartsHostCall (.standby .turnOn) (.setStandbyStatus true) 0x0E#8 (fun _ => [1#8, 0#8, 0#8, 0#8]) (.bool false) ∧
  StartsHostCall (.standby .turnOff) (.setStandbyStatus false) 0x0E#8 (fun _ => [2#8, 0#8, 0#8, 0#8]) (.bool false) ∧
  ∀ turnOn : Bool, FinishesHostCall .standbyResponse (.setStandbyStatus turnOn) 0xF1#8
    (fun p => if 1 ≤ p.length ∧ p.getD 0 0#8 = 1#8 then some (.bool true) else none) (.bool false)

/-- R249: setOutputMute(channel, mute), with the echo offsets the spec leaves OPEN, whatever they are (log 4), in the
two halves of logs 12 and 13, with logs 15, 16, 23 and 26 (all DESIGN CHOICE). -/
def Obligations.SetOutputMuteProgram : Prop :=
  ∀ (channel : Byte) (mute : Bool),
    StartsHostCall (.writeoutmute channel mute) (.setOutputMute channel mute) 0x03#8
      (fun _ => [channel, if mute then 1#8 else 0#8, 0#8, 0#8]) (.bool false) ∧
    FinishesHostCall .writeoutmuteResponse (.setOutputMute channel mute) 0xFC#8
      (fun p => if p.getD 0 0#8 = 1#8 ∧ max Config.muteEchoChOff Config.muteEchoMuteOff < p.length ∧
          p.getD Config.muteEchoChOff 0#8 = channel ∧
          p.getD Config.muteEchoMuteOff 0#8 = (if mute then 1#8 else 0#8)
        then some (.bool true) else none)
      (.bool false)

/-- R247: the power state of a status reply's payload; and, the spec's own inference ([derived]), the two flags are
never both set. -/
def Obligations.PowerStateOfAReply : Prop :=
  powerState none = .unknown ∧
  ∀ p : Bytes,
    (4 ≤ p.length → p.getD 0 0#8 = 1#8 → p.getD 1 0#8 = 2#8 → powerState (readStandbyStatus p) = .online) ∧
    (4 ≤ p.length → p.getD 0 0#8 = 1#8 → p.getD 1 0#8 = 1#8 → powerState (readStandbyStatus p) = .standby) ∧
    ((p.length < 4 ∨ p.getD 0 0#8 ≠ 1#8 ∨ (p.getD 1 0#8 ≠ 1#8 ∧ p.getD 1 0#8 ≠ 2#8)) →
      powerState (readStandbyStatus p) = .unknown) ∧
    readStandbyStatus p ≠ some ⟨true, true⟩

/-- R240 with logs 13 and 16 (DESIGN CHOICE): with no completion of its cookie on CPL or among those the host kept, a
host program goes on waiting, nothing changes. -/
def Obligations.AHostProgramWaitsForItsCompletion : Prop :=
  ∀ (c : U16) (s : State), (∀ k ∈ s.hostKept ++ s.cpl, k.cookie ≠ c) →
    ∀ i ∈ [Instr.pingResponse c, .readgmResponse c, .writeoutmuteResponse c, .infoResponse c, .standbyResponse c],
      exec i s = .next s

/-! ### Codes -/

/-- R281 to R285: the numbers of the codes a port carries. -/
def Obligations.OutcomeCodesHaveTheirNumbers : Prop :=
  [ResultCode.ok, .notOpen, .tooLong, .tableFull, .collision, .alreadyOpen, .badConfig, .illegalOp, .illegalCsr,
    .invalid].map ResultCode.number = [0, 1, 2, 3, 4, 5, 6, 7, 8, 9] ∧
  [DecodeReason.tooShort, .badStart, .badEnd, .badLength, .badComplement, .badCrc].map DecodeReason.number =
    [1, 2, 3, 4, 5, 6] ∧
  [CompletionKind.response, .timeout, .aborted].map CompletionKind.number = [0, 1, 2] ∧
  [LogLevel.debug, .info, .warn, .error].map LogLevel.number = [0, 1, 2, 3] ∧
  [LogEvent.dropInvalid, .dropUnmatched, .dropClosed].map LogEvent.number = [1, 2, 3] ∧
  [StatusState.connecting, .ok, .connectionFailure, .badConfig].map StatusState.number = [0, 1, 2, 3]
end

