-- ==== Sys2Proof/Laws/Bytes.lean ====
section
/-! SUPPORT. Laws of the operand forms: little-endian pairs, and each operand reader against its writer. -/

namespace Sys2Proof

@[simp] theorem byteAt_cons_zero (b : Byte) (s : Bytes) : byteAt (b :: s) 0 = b := rfl

@[simp] theorem byteAt_cons_succ (b : Byte) (s : Bytes) (i : Nat) : byteAt (b :: s) (i + 1) = byteAt s i := rfl

theorem byteAt_of_lt {s : Bytes} {i : Nat} (h : i < s.length) : s[i]? = some (byteAt s i) := by
  simp [byteAt, List.getD_eq_getElem?_getD, List.getElem?_eq_getElem h]

theorem getD_eq_byteAt (s : Bytes) (i : Nat) : s.getD i 0#8 = byteAt s i := rfl

/-- The low and high byte of a 16-bit value give it back. -/
@[simp] theorem pair16_bytes (v : U16) : pair16 (v.setWidth 8) ((v >>> 8).setWidth 8) = v := by
  apply BitVec.eq_of_getLsbD_eq
  intro i hi
  simp only [pair16, BitVec.getLsbD_or, BitVec.getLsbD_setWidth, BitVec.getLsbD_shiftLeft, BitVec.getLsbD_ushiftRight]
  by_cases h : i < 8
  · simp [h, hi]
  · have h2 : 8 + (i - 8) = i := by omega
    have h3 : i - 8 < 8 := by omega
    simp [h, hi, h2, h3]
    intros; omega

/-- A pair's low byte. -/
@[simp] theorem pair16_low (lo hi : Byte) : (pair16 lo hi).setWidth 8 = lo := by
  apply BitVec.eq_of_getLsbD_eq
  intro i hi'
  simp only [pair16, BitVec.getLsbD_or, BitVec.getLsbD_setWidth, BitVec.getLsbD_shiftLeft]
  simp [hi']
  intros; omega

/-- A pair's high byte. -/
@[simp] theorem pair16_high (lo hi : Byte) : (pair16 lo hi >>> 8).setWidth 8 = hi := by
  apply BitVec.eq_of_getLsbD_eq
  intro i hi'
  simp only [pair16, BitVec.getLsbD_or, BitVec.getLsbD_setWidth, BitVec.getLsbD_shiftLeft, BitVec.getLsbD_ushiftRight]
  simp [hi', show 8 + i < 16 by omega]
  intros; omega

@[simp] theorem lebytes16_pair16 (lo hi : Byte) : lebytes16 (pair16 lo hi) = [lo, hi] := by
  simp [lebytes16]

@[simp] theorem lebytes16_length (v : U16) : (lebytes16 v).length = 2 := rfl

@[simp] theorem boolByte_eq_zero (b : Bool) : boolByte b = 0#8 ↔ b = false := by cases b <;> decide

/-! ### Readers against writers -/

@[simp] theorem readU16_lebytes16 (v : U16) (r : Bytes) : readU16 (lebytes16 v ++ r) = .ok (v, r) := by
  simp [lebytes16, readU16]

theorem readU16_ok {s r : Bytes} {v : U16} (h : readU16 s = .ok (v, r)) : s = lebytes16 v ++ r := by
  match s, h with
  | lo :: hi :: t, h =>
    simp only [readU16, Except.ok.injEq, Prod.mk.injEq] at h
    obtain ⟨rfl, rfl⟩ := h
    simp

theorem readNat_writeNatFuel (fuel n : Nat) (h : n ≤ fuel) (r : Bytes) :
    readNat (writeNatFuel fuel n ++ r) = .ok (n, r) := by
  induction fuel generalizing n with
  | zero =>
    obtain rfl : n = 0 := by omega
    simp [writeNatFuel, readNat]
  | succ fuel ih =>
    by_cases hn : n < 128
    · simp [writeNatFuel, readNat, hn, Nat.mod_eq_of_lt (show n < 256 by omega)]
    · have hd : n / 128 ≤ fuel := by omega
      have hb : (BitVec.ofNat 8 (n % 128 + 128)).toNat = n % 128 + 128 := by
        simp only [BitVec.toNat_ofNat]; omega
      have hz : ¬ n / 128 = 0 := by omega
      simp only [writeNatFuel, hn, if_false, List.cons_append, readNat, hb, ih _ hd, hz]
      have h1 : ¬ (n % 128 + 128 < 128) := by omega
      have h2 : n % 128 + 128 - 128 + 128 * (n / 128) = n := by omega
      simp only [h1, if_false, h2]

@[simp] theorem readNat_writeNat (n : Nat) (r : Bytes) : readNat (writeNat n ++ r) = .ok (n, r) :=
  readNat_writeNatFuel n n (Nat.le_refl n) r

/-- Any fuel that is enough writes the same groups. -/
theorem writeNatFuel_eq (f g n : Nat) (hf : n ≤ f) (hg : n ≤ g) : writeNatFuel f n = writeNatFuel g n := by
  induction f generalizing g n with
  | zero =>
    obtain rfl : n = 0 := by omega
    cases g <;> simp [writeNatFuel]
  | succ f ih =>
    cases g with
    | zero =>
      obtain rfl : n = 0 := by omega
      simp [writeNatFuel]
    | succ g =>
      by_cases hn : n < 128
      · simp [writeNatFuel, hn]
      · simp only [writeNatFuel, hn, if_false]
        rw [ih g (n / 128) (by omega) (by omega)]

theorem writeNat_of_lt {n : Nat} (h : n < 128) : writeNat n = [BitVec.ofNat 8 n] := by
  cases n <;> simp [writeNat, writeNatFuel, h]

theorem writeNat_of_ge {n : Nat} (h : 128 ≤ n) :
    writeNat n = BitVec.ofNat 8 (n % 128 + 128) :: writeNat (n / 128) := by
  obtain ⟨k, rfl⟩ : ∃ k, n = k + 1 := ⟨n - 1, by omega⟩
  simp only [writeNat, writeNatFuel, show ¬ k + 1 < 128 by omega, if_false]
  rw [writeNatFuel_eq k ((k + 1) / 128) _ (by omega) (by omega)]

theorem readNat_ok {s r : Bytes} {n : Nat} (h : readNat s = .ok (n, r)) : s = writeNat n ++ r := by
  induction s generalizing n r with
  | nil => simp [readNat] at h
  | cons b s ih =>
    have hb := b.isLt
    simp only [readNat] at h
    split at h
    · rename_i hlt
      simp only [Except.ok.injEq, Prod.mk.injEq] at h
      obtain ⟨rfl, rfl⟩ := h
      simp [writeNat_of_lt hlt]
    · rename_i hge
      split at h
      · rename_i k r' hk
        split at h
        · simp at h
        · rename_i hk0
          simp only [Except.ok.injEq, Prod.mk.injEq] at h
          obtain ⟨rfl, rfl⟩ := h
          have h1 : (b.toNat - 128 + 128 * k) / 128 = k := by omega
          have h2 : (b.toNat - 128 + 128 * k) % 128 + 128 = b.toNat := by omega
          rw [writeNat_of_ge (by omega), h1, h2, ih hk]
          simp
      · simp at h

@[simp] theorem readBytes_writeBytes (s r : Bytes) : readBytes (writeBytes s ++ r) = .ok (s, r) := by
  simp [readBytes, writeBytes, List.append_assoc]

theorem readBytes_ok {s r v : Bytes} (h : readBytes s = .ok (v, r)) : s = writeBytes v ++ r := by
  unfold readBytes at h
  split at h
  · rename_i n t hn
    split at h
    · rename_i hle
      simp only [Except.ok.injEq, Prod.mk.injEq] at h
      obtain ⟨rfl, rfl⟩ := h
      rw [readNat_ok hn]
      simp [writeBytes, Nat.min_eq_left hle]
    · simp at h
  · simp at h

@[simp] theorem readAddr_writeBytes (a : Addr) (r : Bytes) : readAddr (writeBytes a.name ++ r) = .ok (a, r) := by
  simp [readAddr]

theorem readAddr_ok {s r : Bytes} {a : Addr} (h : readAddr s = .ok (a, r)) : s = writeBytes a.name ++ r := by
  unfold readAddr at h
  split at h
  · rename_i hb
    simp only [Except.ok.injEq, Prod.mk.injEq] at h
    obtain ⟨rfl, rfl⟩ := h
    exact readBytes_ok hb
  · simp at h

@[simp] theorem readU8_cons (b : Byte) (r : Bytes) : readU8 (b :: r) = .ok (b, r) := rfl

theorem readU8_ok {s r : Bytes} {b : Byte} (h : readU8 s = .ok (b, r)) : s = b :: r := by
  cases s <;> simp_all [readU8]

theorem readU4_ok {s r : Bytes} {b : Byte} (h : readU4 s = .ok (b, r)) : s = b :: r ∧ b.toNat < 16 := by
  cases s with
  | nil => simp [readU4] at h
  | cons c t =>
    simp only [readU4] at h
    split at h
    · simp only [Except.ok.injEq, Prod.mk.injEq] at h
      obtain ⟨rfl, rfl⟩ := h
      exact ⟨rfl, ‹_›⟩
    · simp at h

@[simp] theorem readBool_boolByte (b : Bool) (r : Bytes) : readBool (boolByte b :: r) = .ok (b, r) := by
  cases b <;> simp [readBool, boolByte]

theorem readBool_ok {s r : Bytes} {b : Bool} (h : readBool s = .ok (b, r)) : s = boolByte b :: r := by
  cases s with
  | nil => simp [readBool] at h
  | cons c t =>
    simp only [readBool] at h
    split at h
    · simp_all [boolByte]
    · split at h <;> simp_all [boolByte]

@[simp] theorem readAction_byte (a : StandbyAction) (r : Bytes) : readAction (a.byte :: r) = .ok (a, r) := by
  cases a <;> simp [readAction, StandbyAction.byte]

theorem readAction_ok {s r : Bytes} {a : StandbyAction} (h : readAction s = .ok (a, r)) : s = a.byte :: r := by
  cases s with
  | nil => simp [readAction] at h
  | cons c t =>
    simp only [readAction] at h
    split at h
    · simp_all only [Except.ok.injEq, Prod.mk.injEq]; obtain ⟨rfl, rfl⟩ := h; rfl
    · split at h
      · simp_all only [Except.ok.injEq, Prod.mk.injEq]; obtain ⟨rfl, rfl⟩ := h; rfl
      · split at h
        · simp_all only [Except.ok.injEq, Prod.mk.injEq]; obtain ⟨rfl, rfl⟩ := h; rfl
        · simp at h

@[simp] theorem readTimeout_writeTimeout (t : Option Nat) (r : Bytes) :
    readTimeout (writeTimeout t ++ r) = .ok (t, r) := by
  cases t <;> simp [readTimeout, writeTimeout]

theorem readTimeout_ok {s r : Bytes} {t : Option Nat} (h : readTimeout s = .ok (t, r)) :
    s = writeTimeout t ++ r := by
  cases s with
  | nil => simp [readTimeout] at h
  | cons c u =>
    simp only [readTimeout] at h
    split at h
    · simp_all only [Except.ok.injEq, Prod.mk.injEq]; obtain ⟨rfl, rfl⟩ := h; rfl
    · split at h
      · split at h
        · rename_i hn
          simp_all only [Except.ok.injEq, Prod.mk.injEq]
          obtain ⟨rfl, rfl⟩ := h
          rw [readNat_ok hn]; rfl
        · simp at h
      · simp at h

end Sys2Proof
end

