-- ==== Sys2Proof/Laws/Codec.lean ====
section
/-! SUPPORT. Laws of the frame codec: the shape of an encoded frame, and what a successful decoding says. -/

namespace Sys2Proof.Machine

theorem encodeFrame_length (cmd : Byte) (cookie port : U16) (p : Bytes) :
    (encodeFrame cmd cookie port p).length = 12 + p.length := by
  simp [encodeFrame, lebytes16]; omega

/-- The frame written out: header, payload, tail. -/
theorem encodeFrame_eq (cmd : Byte) (cookie port : U16) (p : Bytes) :
    encodeFrame cmd cookie port p =
      Config.startMarker :: cmd :: cookie.setWidth 8 :: (cookie >>> 8).setWidth 8 ::
        (BitVec.ofNat 16 p.length).setWidth 8 :: (BitVec.ofNat 16 p.length >>> 8).setWidth 8 ::
        port.setWidth 8 :: (port >>> 8).setWidth 8 ::
        (p ++ [(crc16 p).setWidth 8, (crc16 p >>> 8).setWidth 8, complementOf cmd, Config.endMarker]) := by
  simp [encodeFrame, lebytes16]

/-- A byte of the frame's tail, `k` after the payload. -/
theorem byteAt_tail (a b c d e f g h : Byte) (p q : Bytes) (k : Nat) :
    byteAt (a :: b :: c :: d :: e :: f :: g :: h :: (p ++ q)) (8 + p.length + k) = byteAt q k := by
  have : 8 + p.length + k = p.length + k + 1 + 1 + 1 + 1 + 1 + 1 + 1 + 1 := by omega
  rw [this]
  simp only [byteAt_cons_succ]
  simp [byteAt, List.getD_eq_getElem?_getD, List.getElem?_append_right]

theorem framePayload_cons (a b c d e f g h : Byte) (p q : Bytes) (hl : (pair16 e f).toNat = p.length) :
    framePayload (a :: b :: c :: d :: e :: f :: g :: h :: (p ++ q)) = p := by
  have hL : frameLength (a :: b :: c :: d :: e :: f :: g :: h :: (p ++ q)) = p.length := hl
  simp [framePayload, slice, hL]

/-- What a successful decoding says of the frame: every check of R152 held. -/
theorem decodeFrame_ok {f : Bytes} {m : Message} (h : decodeFrame f = .ok m) :
    12 ≤ f.length ∧ byteAt f 0 = Config.startMarker ∧ byteAt f (f.length - 1) = Config.endMarker ∧
    f.length = 12 + frameLength f ∧ byteAt f (10 + frameLength f) = complementOf (byteAt f 1) ∧
    le16 f (8 + frameLength f) = crc16 (framePayload f) ∧ m = frameMessage f := by
  unfold decodeFrame at h
  simp only [Config.frameOverhead] at h
  by_cases h1 : f.length < 12
  · rw [if_pos h1] at h; cases h
  rw [if_neg h1] at h
  by_cases h2 : byteAt f 0 = Config.startMarker
  case neg => rw [if_pos h2] at h; cases h
  rw [if_neg (not_not.2 h2)] at h
  by_cases h3 : byteAt f (f.length - 1) = Config.endMarker
  case neg => rw [if_pos h3] at h; cases h
  rw [if_neg (not_not.2 h3)] at h
  by_cases h4 : f.length = 12 + frameLength f
  case neg => rw [if_pos h4] at h; cases h
  rw [if_neg (not_not.2 h4)] at h
  by_cases h5 : byteAt f (10 + frameLength f) = complementOf (byteAt f 1)
  case neg => rw [if_pos h5] at h; cases h
  rw [if_neg (not_not.2 h5)] at h
  by_cases h6 : le16 f (8 + frameLength f) = crc16 (framePayload f)
  case neg => rw [if_pos h6] at h; cases h
  rw [if_neg (not_not.2 h6)] at h
  cases h
  exact ⟨by omega, h2, h3, h4, h5, h6, rfl⟩

/-- A frame of at least 8 bytes split at its header. -/
theorem cons8_of_length {f : Bytes} (h : 8 ≤ f.length) : ∃ a b c d e x g y r, f = a :: b :: c :: d :: e :: x :: g :: y :: r := by
  match f, h with
  | a :: b :: c :: d :: e :: x :: g :: y :: r, _ => exact ⟨a, b, c, d, e, x, g, y, r, rfl⟩

end Sys2Proof.Machine
end

