-- ==== Sys2Proof/Laws/Crc.lean ====
section
/-! SUPPORT. Laws of the CRC functions. -/

namespace Sys2Proof.Machine

@[simp] theorem crcFrom_nil (c : U16) : crcFrom c [] = c := rfl

@[simp] theorem crcFrom_cons (c : U16) (d : Byte) (s : Bytes) : crcFrom c (d :: s) = crcFrom (crcByte c d) s := rfl

theorem crcFrom_append (c : U16) (a b : Bytes) : crcFrom c (a ++ b) = crcFrom (crcFrom c a) b := by
  induction a generalizing c with
  | nil => rfl
  | cons d a ih => simp [ih]

theorem crcBit_xor (a b : U16) : crcBit (a ^^^ b) = crcBit a ^^^ crcBit b := by
  have hp (x : U16) : Config.crcPoly ^^^ (Config.crcPoly ^^^ x) = x := by
    rw [← BitVec.xor_assoc, BitVec.xor_self, BitVec.zero_xor]
  simp only [crcBit, BitVec.getLsbD_xor, BitVec.ushiftRight_xor_distrib]
  cases a.getLsbD 0 <;> cases b.getLsbD 0 <;> simp
  · ac_rfl
  · ac_rfl
  · calc a >>> 1 ^^^ b >>> 1 = Config.crcPoly ^^^ (Config.crcPoly ^^^ (a >>> 1 ^^^ b >>> 1)) := (hp _).symm
      _ = _ := by ac_rfl

theorem crcBits_xor (n : Nat) (a b : U16) : crcBits n (a ^^^ b) = crcBits n a ^^^ crcBits n b := by
  induction n generalizing a b with
  | zero => rfl
  | succ n ih => simp [crcBits, crcBit_xor, ih]

theorem crcByte_xor (a b : U16) (d e : Byte) : crcByte (a ^^^ b) (d ^^^ e) = crcByte a d ^^^ crcByte b e := by
  rw [crcByte, crcByte, crcByte, ← crcBits_xor]
  congr 1
  rw [BitVec.setWidth_xor]
  ac_rfl

/-- Bits that are 0 at the bottom are shifted out unchanged. -/
theorem crcBits_of_low_zero (n : Nat) (v : U16) (h : ∀ i < n, v.getLsbD i = false) : crcBits n v = v >>> n := by
  induction n generalizing v with
  | zero => simp [crcBits]
  | succ n ih =>
    have h0 : v.getLsbD 0 = false := h 0 (by omega)
    have hb : crcBit v = v >>> 1 := by rw [crcBit, h0]; rfl
    rw [crcBits, hb, ih]
    · rw [Nat.add_comm n 1, BitVec.shiftRight_add]
    · intro i hi
      rw [BitVec.getLsbD_ushiftRight]
      exact h _ (by omega)

/-- The byte step with the low byte of the running value leaves its high byte. -/
theorem crcByte_own_low (c : U16) : crcByte c (c.setWidth 8) = c >>> 8 := by
  rw [crcByte, crcBits_of_low_zero]
  · apply BitVec.eq_of_getLsbD_eq
    intro i hi
    simp [BitVec.getLsbD_ushiftRight, BitVec.getLsbD_xor, BitVec.getLsbD_setWidth]
  · intro i hi
    simp [hi, show i < 16 by omega]

theorem crcByte_of_high_zero (c : U16) : crcByte (c >>> 8) ((c >>> 8).setWidth 8) = 0#16 := by
  rw [crcByte_own_low]
  apply BitVec.eq_of_getLsbD_eq
  intro i hi
  simp only [BitVec.getLsbD_ushiftRight, BitVec.getLsbD_zero]
  exact BitVec.getLsbD_of_ge _ _ (by omega)

end Sys2Proof.Machine
end

