-- ==== Sys2Proof/Laws/State.lean ====
section
/-! SUPPORT. One lemma per field per named update of State, each true by unfolding the update. -/

namespace Sys2Proof.Machine

/-! ### The parameters -/

/-- N_PENDING's range (R6). -/
theorem Params.nPending_range (q : Params) : 1 ≤ q.nPending ∧ q.nPending ≤ 65536 := by
  unfold Params.nPending
  omega

/-! ### emitResult -/

@[simp] theorem emitResult_crcAcc (c : ResultCode) (v : Value) (s : State) : (emitResult c v s).crcAcc = s.crcAcc := rfl
@[simp] theorem emitResult_sessState (c : ResultCode) (v : Value) (s : State) : (emitResult c v s).sessState = s.sessState := rfl
@[simp] theorem emitResult_localPort (c : ResultCode) (v : Value) (s : State) : (emitResult c v s).localPort = s.localPort := rfl
@[simp] theorem emitResult_remoteHost (c : ResultCode) (v : Value) (s : State) : (emitResult c v s).remoteHost = s.remoteHost := rfl
@[simp] theorem emitResult_remotePort (c : ResultCode) (v : Value) (s : State) : (emitResult c v s).remotePort = s.remotePort := rfl
@[simp] theorem emitResult_nextCookie (c : ResultCode) (v : Value) (s : State) : (emitResult c v s).nextCookie = s.nextCookie := rfl
@[simp] theorem emitResult_now (c : ResultCode) (v : Value) (s : State) : (emitResult c v s).now = s.now := rfl
@[simp] theorem emitResult_faultCollision (c : ResultCode) (v : Value) (s : State) : (emitResult c v s).faultCollision = s.faultCollision := rfl
@[simp] theorem emitResult_pt (c : ResultCode) (v : Value) (s : State) : (emitResult c v s).pt = s.pt := rfl
@[simp] theorem emitResult_result (c : ResultCode) (v : Value) (s : State) : (emitResult c v s).result = s.result ++ [⟨c, v⟩] := rfl
@[simp] theorem emitResult_tx (c : ResultCode) (v : Value) (s : State) : (emitResult c v s).tx = s.tx := rfl
@[simp] theorem emitResult_cpl (c : ResultCode) (v : Value) (s : State) : (emitResult c v s).cpl = s.cpl := rfl
@[simp] theorem emitResult_log (c : ResultCode) (v : Value) (s : State) : (emitResult c v s).log = s.log := rfl
@[simp] theorem emitResult_status (c : ResultCode) (v : Value) (s : State) : (emitResult c v s).status = s.status := rfl
@[simp] theorem emitResult_params (c : ResultCode) (v : Value) (s : State) : (emitResult c v s).params = s.params := rfl
@[simp] theorem emitResult_inputs (c : ResultCode) (v : Value) (s : State) : (emitResult c v s).inputs = s.inputs := rfl
@[simp] theorem emitResult_hostCalls (c : ResultCode) (v : Value) (s : State) : (emitResult c v s).hostCalls = s.hostCalls := rfl
@[simp] theorem emitResult_hostReturns (c : ResultCode) (v : Value) (s : State) : (emitResult c v s).hostReturns = s.hostReturns := rfl
@[simp] theorem emitResult_hostKept (c : ResultCode) (v : Value) (s : State) : (emitResult c v s).hostKept = s.hostKept := rfl
@[simp] theorem emitResult_logSink (c : ResultCode) (v : Value) (s : State) : (emitResult c v s).logSink = s.logSink := rfl
@[simp] theorem emitResult_freeCount (c : ResultCode) (v : Value) (s : State) : (emitResult c v s).freeCount = s.freeCount := rfl

/-! ### emitTx -/

@[simp] theorem emitTx_crcAcc (d : Datagram) (s : State) : (emitTx d s).crcAcc = s.crcAcc := rfl
@[simp] theorem emitTx_sessState (d : Datagram) (s : State) : (emitTx d s).sessState = s.sessState := rfl
@[simp] theorem emitTx_localPort (d : Datagram) (s : State) : (emitTx d s).localPort = s.localPort := rfl
@[simp] theorem emitTx_remoteHost (d : Datagram) (s : State) : (emitTx d s).remoteHost = s.remoteHost := rfl
@[simp] theorem emitTx_remotePort (d : Datagram) (s : State) : (emitTx d s).remotePort = s.remotePort := rfl
@[simp] theorem emitTx_nextCookie (d : Datagram) (s : State) : (emitTx d s).nextCookie = s.nextCookie := rfl
@[simp] theorem emitTx_now (d : Datagram) (s : State) : (emitTx d s).now = s.now := rfl
@[simp] theorem emitTx_faultCollision (d : Datagram) (s : State) : (emitTx d s).faultCollision = s.faultCollision := rfl
@[simp] theorem emitTx_pt (d : Datagram) (s : State) : (emitTx d s).pt = s.pt := rfl
@[simp] theorem emitTx_result (d : Datagram) (s : State) : (emitTx d s).result = s.result := rfl
@[simp] theorem emitTx_tx (d : Datagram) (s : State) : (emitTx d s).tx = s.tx ++ [d] := rfl
@[simp] theorem emitTx_cpl (d : Datagram) (s : State) : (emitTx d s).cpl = s.cpl := rfl
@[simp] theorem emitTx_log (d : Datagram) (s : State) : (emitTx d s).log = s.log := rfl
@[simp] theorem emitTx_status (d : Datagram) (s : State) : (emitTx d s).status = s.status := rfl
@[simp] theorem emitTx_params (d : Datagram) (s : State) : (emitTx d s).params = s.params := rfl
@[simp] theorem emitTx_inputs (d : Datagram) (s : State) : (emitTx d s).inputs = s.inputs := rfl
@[simp] theorem emitTx_hostCalls (d : Datagram) (s : State) : (emitTx d s).hostCalls = s.hostCalls := rfl
@[simp] theorem emitTx_hostReturns (d : Datagram) (s : State) : (emitTx d s).hostReturns = s.hostReturns := rfl
@[simp] theorem emitTx_hostKept (d : Datagram) (s : State) : (emitTx d s).hostKept = s.hostKept := rfl
@[simp] theorem emitTx_logSink (d : Datagram) (s : State) : (emitTx d s).logSink = s.logSink := rfl
@[simp] theorem emitTx_freeCount (d : Datagram) (s : State) : (emitTx d s).freeCount = s.freeCount := rfl

/-! ### emitCpl -/

@[simp] theorem emitCpl_crcAcc (l : List Completion) (s : State) : (emitCpl l s).crcAcc = s.crcAcc := rfl
@[simp] theorem emitCpl_sessState (l : List Completion) (s : State) : (emitCpl l s).sessState = s.sessState := rfl
@[simp] theorem emitCpl_localPort (l : List Completion) (s : State) : (emitCpl l s).localPort = s.localPort := rfl
@[simp] theorem emitCpl_remoteHost (l : List Completion) (s : State) : (emitCpl l s).remoteHost = s.remoteHost := rfl
@[simp] theorem emitCpl_remotePort (l : List Completion) (s : State) : (emitCpl l s).remotePort = s.remotePort := rfl
@[simp] theorem emitCpl_nextCookie (l : List Completion) (s : State) : (emitCpl l s).nextCookie = s.nextCookie := rfl
@[simp] theorem emitCpl_now (l : List Completion) (s : State) : (emitCpl l s).now = s.now := rfl
@[simp] theorem emitCpl_faultCollision (l : List Completion) (s : State) : (emitCpl l s).faultCollision = s.faultCollision := rfl
@[simp] theorem emitCpl_pt (l : List Completion) (s : State) : (emitCpl l s).pt = s.pt := rfl
@[simp] theorem emitCpl_result (l : List Completion) (s : State) : (emitCpl l s).result = s.result := rfl
@[simp] theorem emitCpl_tx (l : List Completion) (s : State) : (emitCpl l s).tx = s.tx := rfl
@[simp] theorem emitCpl_cpl (l : List Completion) (s : State) : (emitCpl l s).cpl = s.cpl ++ l := rfl
@[simp] theorem emitCpl_log (l : List Completion) (s : State) : (emitCpl l s).log = s.log := rfl
@[simp] theorem emitCpl_status (l : List Completion) (s : State) : (emitCpl l s).status = s.status := rfl
@[simp] theorem emitCpl_params (l : List Completion) (s : State) : (emitCpl l s).params = s.params := rfl
@[simp] theorem emitCpl_inputs (l : List Completion) (s : State) : (emitCpl l s).inputs = s.inputs := rfl
@[simp] theorem emitCpl_hostCalls (l : List Completion) (s : State) : (emitCpl l s).hostCalls = s.hostCalls := rfl
@[simp] theorem emitCpl_hostReturns (l : List Completion) (s : State) : (emitCpl l s).hostReturns = s.hostReturns := rfl
@[simp] theorem emitCpl_hostKept (l : List Completion) (s : State) : (emitCpl l s).hostKept = s.hostKept := rfl
@[simp] theorem emitCpl_logSink (l : List Completion) (s : State) : (emitCpl l s).logSink = s.logSink := rfl
@[simp] theorem emitCpl_freeCount (l : List Completion) (s : State) : (emitCpl l s).freeCount = s.freeCount := rfl

/-! ### emitLog -/

@[simp] theorem emitLog_crcAcc (r : LogRecord) (s : State) : (emitLog r s).crcAcc = s.crcAcc := rfl
@[simp] theorem emitLog_sessState (r : LogRecord) (s : State) : (emitLog r s).sessState = s.sessState := rfl
@[simp] theorem emitLog_localPort (r : LogRecord) (s : State) : (emitLog r s).localPort = s.localPort := rfl
@[simp] theorem emitLog_remoteHost (r : LogRecord) (s : State) : (emitLog r s).remoteHost = s.remoteHost := rfl
@[simp] theorem emitLog_remotePort (r : LogRecord) (s : State) : (emitLog r s).remotePort = s.remotePort := rfl
@[simp] theorem emitLog_nextCookie (r : LogRecord) (s : State) : (emitLog r s).nextCookie = s.nextCookie := rfl
@[simp] theorem emitLog_now (r : LogRecord) (s : State) : (emitLog r s).now = s.now := rfl
@[simp] theorem emitLog_faultCollision (r : LogRecord) (s : State) : (emitLog r s).faultCollision = s.faultCollision := rfl
@[simp] theorem emitLog_pt (r : LogRecord) (s : State) : (emitLog r s).pt = s.pt := rfl
@[simp] theorem emitLog_result (r : LogRecord) (s : State) : (emitLog r s).result = s.result := rfl
@[simp] theorem emitLog_tx (r : LogRecord) (s : State) : (emitLog r s).tx = s.tx := rfl
@[simp] theorem emitLog_cpl (r : LogRecord) (s : State) : (emitLog r s).cpl = s.cpl := rfl
@[simp] theorem emitLog_log (r : LogRecord) (s : State) : (emitLog r s).log = s.log ++ [r] := rfl
@[simp] theorem emitLog_status (r : LogRecord) (s : State) : (emitLog r s).status = s.status := rfl
@[simp] theorem emitLog_params (r : LogRecord) (s : State) : (emitLog r s).params = s.params := rfl
@[simp] theorem emitLog_inputs (r : LogRecord) (s : State) : (emitLog r s).inputs = s.inputs := rfl
@[simp] theorem emitLog_hostCalls (r : LogRecord) (s : State) : (emitLog r s).hostCalls = s.hostCalls := rfl
@[simp] theorem emitLog_hostReturns (r : LogRecord) (s : State) : (emitLog r s).hostReturns = s.hostReturns := rfl
@[simp] theorem emitLog_hostKept (r : LogRecord) (s : State) : (emitLog r s).hostKept = s.hostKept := rfl
@[simp] theorem emitLog_logSink (r : LogRecord) (s : State) : (emitLog r s).logSink = s.logSink := rfl
@[simp] theorem emitLog_freeCount (r : LogRecord) (s : State) : (emitLog r s).freeCount = s.freeCount := rfl

/-! ### emitStatus -/

@[simp] theorem emitStatus_crcAcc (r : StatusRecord) (s : State) : (emitStatus r s).crcAcc = s.crcAcc := rfl
@[simp] theorem emitStatus_sessState (r : StatusRecord) (s : State) : (emitStatus r s).sessState = s.sessState := rfl
@[simp] theorem emitStatus_localPort (r : StatusRecord) (s : State) : (emitStatus r s).localPort = s.localPort := rfl
@[simp] theorem emitStatus_remoteHost (r : StatusRecord) (s : State) : (emitStatus r s).remoteHost = s.remoteHost := rfl
@[simp] theorem emitStatus_remotePort (r : StatusRecord) (s : State) : (emitStatus r s).remotePort = s.remotePort := rfl
@[simp] theorem emitStatus_nextCookie (r : StatusRecord) (s : State) : (emitStatus r s).nextCookie = s.nextCookie := rfl
@[simp] theorem emitStatus_now (r : StatusRecord) (s : State) : (emitStatus r s).now = s.now := rfl
@[simp] theorem emitStatus_faultCollision (r : StatusRecord) (s : State) : (emitStatus r s).faultCollision = s.faultCollision := rfl
@[simp] theorem emitStatus_pt (r : StatusRecord) (s : State) : (emitStatus r s).pt = s.pt := rfl
@[simp] theorem emitStatus_result (r : StatusRecord) (s : State) : (emitStatus r s).result = s.result := rfl
@[simp] theorem emitStatus_tx (r : StatusRecord) (s : State) : (emitStatus r s).tx = s.tx := rfl
@[simp] theorem emitStatus_cpl (r : StatusRecord) (s : State) : (emitStatus r s).cpl = s.cpl := rfl
@[simp] theorem emitStatus_log (r : StatusRecord) (s : State) : (emitStatus r s).log = s.log := rfl
@[simp] theorem emitStatus_status (r : StatusRecord) (s : State) : (emitStatus r s).status = s.status ++ [r] := rfl
@[simp] theorem emitStatus_params (r : StatusRecord) (s : State) : (emitStatus r s).params = s.params := rfl
@[simp] theorem emitStatus_inputs (r : StatusRecord) (s : State) : (emitStatus r s).inputs = s.inputs := rfl
@[simp] theorem emitStatus_hostCalls (r : StatusRecord) (s : State) : (emitStatus r s).hostCalls = s.hostCalls := rfl
@[simp] theorem emitStatus_hostReturns (r : StatusRecord) (s : State) : (emitStatus r s).hostReturns = s.hostReturns := rfl
@[simp] theorem emitStatus_hostKept (r : StatusRecord) (s : State) : (emitStatus r s).hostKept = s.hostKept := rfl
@[simp] theorem emitStatus_logSink (r : StatusRecord) (s : State) : (emitStatus r s).logSink = s.logSink := rfl
@[simp] theorem emitStatus_freeCount (r : StatusRecord) (s : State) : (emitStatus r s).freeCount = s.freeCount := rfl

/-! ### setCollision -/

@[simp] theorem setCollision_crcAcc (s : State) : (setCollision s).crcAcc = s.crcAcc := rfl
@[simp] theorem setCollision_sessState (s : State) : (setCollision s).sessState = s.sessState := rfl
@[simp] theorem setCollision_localPort (s : State) : (setCollision s).localPort = s.localPort := rfl
@[simp] theorem setCollision_remoteHost (s : State) : (setCollision s).remoteHost = s.remoteHost := rfl
@[simp] theorem setCollision_remotePort (s : State) : (setCollision s).remotePort = s.remotePort := rfl
@[simp] theorem setCollision_nextCookie (s : State) : (setCollision s).nextCookie = s.nextCookie := rfl
@[simp] theorem setCollision_now (s : State) : (setCollision s).now = s.now := rfl
@[simp] theorem setCollision_faultCollision (s : State) : (setCollision s).faultCollision = true := rfl
@[simp] theorem setCollision_pt (s : State) : (setCollision s).pt = s.pt := rfl
@[simp] theorem setCollision_result (s : State) : (setCollision s).result = s.result := rfl
@[simp] theorem setCollision_tx (s : State) : (setCollision s).tx = s.tx := rfl
@[simp] theorem setCollision_cpl (s : State) : (setCollision s).cpl = s.cpl := rfl
@[simp] theorem setCollision_log (s : State) : (setCollision s).log = s.log := rfl
@[simp] theorem setCollision_status (s : State) : (setCollision s).status = s.status := rfl
@[simp] theorem setCollision_params (s : State) : (setCollision s).params = s.params := rfl
@[simp] theorem setCollision_inputs (s : State) : (setCollision s).inputs = s.inputs := rfl
@[simp] theorem setCollision_hostCalls (s : State) : (setCollision s).hostCalls = s.hostCalls := rfl
@[simp] theorem setCollision_hostReturns (s : State) : (setCollision s).hostReturns = s.hostReturns := rfl
@[simp] theorem setCollision_hostKept (s : State) : (setCollision s).hostKept = s.hostKept := rfl
@[simp] theorem setCollision_logSink (s : State) : (setCollision s).logSink = s.logSink := rfl
@[simp] theorem setCollision_freeCount (s : State) : (setCollision s).freeCount = s.freeCount := rfl

/-! ### drawn -/

@[simp] theorem drawn_crcAcc (s : State) : (drawn s).crcAcc = s.crcAcc := rfl
@[simp] theorem drawn_sessState (s : State) : (drawn s).sessState = s.sessState := rfl
@[simp] theorem drawn_localPort (s : State) : (drawn s).localPort = s.localPort := rfl
@[simp] theorem drawn_remoteHost (s : State) : (drawn s).remoteHost = s.remoteHost := rfl
@[simp] theorem drawn_remotePort (s : State) : (drawn s).remotePort = s.remotePort := rfl
@[simp] theorem drawn_nextCookie (s : State) : (drawn s).nextCookie = s.nextCookie := rfl
@[simp] theorem drawn_now (s : State) : (drawn s).now = s.now := rfl
@[simp] theorem drawn_faultCollision (s : State) : (drawn s).faultCollision = s.faultCollision := rfl
@[simp] theorem drawn_pt (s : State) : (drawn s).pt = s.pt := rfl
@[simp] theorem drawn_result (s : State) : (drawn s).result = s.result := rfl
@[simp] theorem drawn_tx (s : State) : (drawn s).tx = s.tx := rfl
@[simp] theorem drawn_cpl (s : State) : (drawn s).cpl = s.cpl := rfl
@[simp] theorem drawn_log (s : State) : (drawn s).log = s.log := rfl
@[simp] theorem drawn_status (s : State) : (drawn s).status = s.status := rfl
@[simp] theorem drawn_params (s : State) : (drawn s).params = s.params := rfl
@[simp] theorem drawn_inputs (s : State) : (drawn s).inputs = s.inputs := rfl
@[simp] theorem drawn_hostCalls (s : State) : (drawn s).hostCalls = s.hostCalls := rfl
@[simp] theorem drawn_hostReturns (s : State) : (drawn s).hostReturns = s.hostReturns := rfl
@[simp] theorem drawn_hostKept (s : State) : (drawn s).hostKept = s.hostKept := rfl
@[simp] theorem drawn_logSink (s : State) : (drawn s).logSink = s.logSink := rfl
@[simp] theorem drawn_freeCount (s : State) : (drawn s).freeCount = s.freeCount + 1 := rfl

@[simp] theorem succeed_eq (v : Value) (s : State) : succeed v s = emitResult .ok v s := rfl

@[simp] theorem fail_eq (c : ResultCode) (v : Value) (s : State) : fail c v s = emitResult c v s := rfl

end Sys2Proof.Machine
end

