-- ==== Sys2Proof/Laws/Table.lean ====
section
/-! SUPPORT. Laws of the pending table, of the open choices and of finding a completion. -/

namespace Sys2Proof.Machine

/-! ### Lookup after an update -/

theorem ptLookup_ptSet (c d : U16) (n : Nat) (t : List PtEntry) :
    ptLookup d (ptSet c n t) = if d = c then some n else ptLookup d t := by
  induction t with
  | nil =>
    by_cases h : d = c
    · simp [ptSet, ptLookup, h]
    · simp [ptSet, ptLookup, h, Ne.symm h]
  | cons e t ih =>
    by_cases h1 : c < e.cookie
    · by_cases h : d = c
      · simp [ptSet, h1, ptLookup, h]
      · simp [ptSet, h1, ptLookup, h, Ne.symm h]
    · by_cases h2 : e.cookie = c
      · by_cases h : d = c
        · simp [ptSet, h2, ptLookup, h]
        · simp [ptSet, h2, ptLookup, h, Ne.symm h]
      · simp only [ptSet, h1, h2, if_false, ptLookup, ih]
        by_cases h3 : e.cookie = d
        · have : ¬ d = c := fun hd => h2 (h3.trans hd)
          simp [h3, this]
        · simp [h3]

theorem ptLookup_ptClear (c d : U16) (t : List PtEntry) :
    ptLookup d (ptClear c t) = if d = c then none else ptLookup d t := by
  induction t with
  | nil => simp [ptClear, ptLookup]
  | cons e t ih =>
    simp only [ptClear] at ih
    by_cases h : e.cookie = c
    · by_cases hd : d = c
      · subst hd
        simpa [ptClear, h] using ih
      · have : ¬ c = d := fun h' => hd h'.symm
        simp [ptClear, ptLookup, h, ih, hd, this]
    · by_cases hd : d = c
      · subst hd
        simp [ptClear, ptLookup, h, ih]
      · simp [ptClear, ptLookup, h, ih, hd]

theorem ptValid_ptSet (c d : U16) (n : Nat) (t : List PtEntry) :
    ptValid d (ptSet c n t) = (decide (d = c) || ptValid d t) := by
  by_cases h : d = c <;> simp [ptValid, ptLookup_ptSet, h]

theorem ptValid_ptClear (c d : U16) (t : List PtEntry) :
    ptValid d (ptClear c t) = (!decide (d = c) && ptValid d t) := by
  by_cases h : d = c <;> simp [ptValid, ptLookup_ptClear, h]

@[simp] theorem ptValid_nil (c : U16) : ptValid c [] = false := rfl

/-! ### Membership -/

theorem ptValid_iff_mem (c : U16) (t : List PtEntry) : ptValid c t = true ↔ ∃ e ∈ t, e.cookie = c := by
  induction t with
  | nil => simp
  | cons e t ih =>
    by_cases h : e.cookie = c
    · simp [ptValid, ptLookup, h]
    · simp only [ptValid] at ih
      simp [ptValid, ptLookup, h, ih]

theorem ptLookup_mem {c : U16} {t : List PtEntry} {n : Nat} (h : ptLookup c t = some n) : ⟨c, n⟩ ∈ t := by
  induction t with
  | nil => simp [ptLookup] at h
  | cons e t ih =>
    simp only [ptLookup] at h
    split at h
    · rename_i hc
      simp only [Option.some.injEq] at h
      subst hc h
      simp
    · exact List.mem_cons_of_mem _ (ih h)

theorem ptLookup_of_mem {t : List PtEntry} (hw : ptWf t) {e : PtEntry} (h : e ∈ t) :
    ptLookup e.cookie t = some e.deadline := by
  induction t with
  | nil => simp at h
  | cons x t ih =>
    rw [ptWf, List.pairwise_cons] at hw
    rcases List.mem_cons.1 h with rfl | h
    · simp [ptLookup]
    · have hlt := hw.1 e h
      have hne : ¬ x.cookie = e.cookie := fun he => by rw [he] at hlt; exact absurd hlt (by bv_omega)
      simp [ptLookup, hne, ih hw.2 h]

/-! ### The canonical form is kept -/

theorem mem_ptSet {c : U16} {n : Nat} {t : List PtEntry} {e : PtEntry} (h : e ∈ ptSet c n t) :
    e = ⟨c, n⟩ ∨ e ∈ t := by
  induction t with
  | nil => simpa [ptSet] using h
  | cons x t ih =>
    simp only [ptSet] at h
    split at h
    · rcases List.mem_cons.1 h with h | h
      · exact .inl h
      · exact .inr h
    · split at h
      · rcases List.mem_cons.1 h with h | h
        · exact .inl h
        · exact .inr (List.mem_cons_of_mem _ h)
      · rcases List.mem_cons.1 h with h | h
        · exact .inr (by simp [h])
        · rcases ih h with h | h
          · exact .inl h
          · exact .inr (List.mem_cons_of_mem _ h)

theorem ptWf_ptSet {t : List PtEntry} (c : U16) (n : Nat) (hw : ptWf t) : ptWf (ptSet c n t) := by
  induction t with
  | nil => simp [ptWf, ptSet]
  | cons x t ih =>
    rw [ptWf, List.pairwise_cons] at hw
    simp only [ptSet]
    split
    · rename_i hlt
      rw [ptWf, List.pairwise_cons, List.pairwise_cons]
      refine ⟨fun e he => ?_, hw⟩
      rcases List.mem_cons.1 he with rfl | he
      · exact hlt
      · exact BitVec.lt_trans hlt (hw.1 e he)
    · split
      · rename_i heq
        rw [ptWf, List.pairwise_cons]
        exact ⟨fun e he => by simpa [← heq] using hw.1 e he, hw.2⟩
      · rename_i hlt hne
        rw [ptWf, List.pairwise_cons]
        refine ⟨fun e he => ?_, ih hw.2⟩
        rcases mem_ptSet he with rfl | he
        · have h1 : x.cookie.toNat ≠ c.toNat := fun h => hne (BitVec.eq_of_toNat_eq h)
          simp only [BitVec.lt_def] at hlt ⊢
          omega
        · exact hw.1 e he

theorem ptWf_ptClear {t : List PtEntry} (c : U16) (hw : ptWf t) : ptWf (ptClear c t) :=
  List.Pairwise.filter _ hw

theorem length_ptSet_le (c : U16) (n : Nat) (t : List PtEntry) : (ptSet c n t).length ≤ t.length + 1 := by
  induction t with
  | nil => simp [ptSet]
  | cons x t ih =>
    simp only [ptSet]
    split
    · simp
    · split
      · simp
      · simpa using ih

theorem length_ptClear_le (c : U16) (t : List PtEntry) : (ptClear c t).length ≤ t.length :=
  List.length_filter_le _ _

/-! ### Open choices -/

theorem placeAt_perm {α : Type} (x : α) (l : List α) (k : Nat) : (placeAt x l k).Perm (x :: l) := by
  induction l generalizing k with
  | nil => simp [placeAt]
  | cons y l ih =>
    by_cases h : k = 0
    · simp [placeAt, h]
    · simp only [placeAt, h, if_false]
      exact ((ih (k - 1)).cons y).trans (List.Perm.swap x y l)

theorem arrange_perm {α : Type} (pick : Nat → Nat) (l : List α) : (arrange pick l).Perm l := by
  induction l with
  | nil => simp [arrange]
  | cons x l ih => exact (placeAt_perm x _ _).trans (ih.cons x)

/-- What CLOSE's open order is: some order of the table's entries. -/
theorem closeOrder_perm (s : State) : (closeOrder s).Perm s.pt := arrange_perm _ _

theorem pickOne_mem {α : Type} {l : List α} {k : Nat} {x : α} (h : pickOne l k = some x) : x ∈ l := by
  induction l generalizing k with
  | nil => simp [pickOne] at h
  | cons y l ih =>
    cases l with
    | nil => simp_all [pickOne]
    | cons z l =>
      simp only [pickOne] at h
      split at h
      · simp_all
      · exact List.mem_cons_of_mem _ (ih h)

theorem pickOne_isSome {α : Type} {l : List α} (h : l ≠ []) (k : Nat) : ∃ x, pickOne l k = some x := by
  induction l generalizing k with
  | nil => exact absurd rfl h
  | cons y l ih =>
    cases l with
    | nil => exact ⟨y, rfl⟩
    | cons z l =>
      by_cases hk : k = 0
      · exact ⟨y, by simp [pickOne, hk]⟩
      · simpa [pickOne, hk] using ih (by simp) (k - 1)

/-! ### Taking a completion -/

/-- Where a record is found: the first of the cookie, with what stands before and after it. -/
theorem findCompletion_eq_some {c : U16} {l front back : List Completion} {k : Completion} :
    findCompletion c l = some (front, k, back) ↔
      l = front ++ k :: back ∧ (∀ x ∈ front, x.cookie ≠ c) ∧ k.cookie = c := by
  induction l generalizing front with
  | nil => simp [findCompletion]
  | cons x l ih =>
    by_cases h : x.cookie = c
    · simp only [findCompletion, h, if_true, Option.some.injEq, Prod.mk.injEq]
      constructor
      · rintro ⟨rfl, rfl, rfl⟩
        exact ⟨rfl, by simp, h⟩
      · rintro ⟨hl, hf, hk⟩
        cases front with
        | nil => simp_all
        | cons y f =>
          simp only [List.cons_append, List.cons.injEq] at hl
          exact absurd (hl.1 ▸ h) (hf y (by simp))
    · simp only [findCompletion, h, if_false]
      constructor
      · intro hm
        split at hm
        · rename_i front' k' back' ht
          simp only [Option.some.injEq, Prod.mk.injEq] at hm
          obtain ⟨rfl, rfl, rfl⟩ := hm
          obtain ⟨rfl, hf, hk⟩ := ih.1 ht
          exact ⟨rfl, List.forall_mem_cons.2 ⟨h, hf⟩, hk⟩
        · simp at hm
      · rintro ⟨hl, hf, hk⟩
        cases front with
        | nil =>
          simp only [List.nil_append, List.cons.injEq] at hl
          exact absurd (hl.1 ▸ hk) h
        | cons y f =>
          simp only [List.cons_append, List.cons.injEq] at hl
          obtain ⟨rfl, rfl⟩ := hl
          rw [ih.2 ⟨rfl, fun z hz => hf z (List.mem_cons_of_mem _ hz), hk⟩]

theorem findCompletion_eq_none {c : U16} {l : List Completion} :
    findCompletion c l = none ↔ ∀ k ∈ l, k.cookie ≠ c := by
  induction l with
  | nil => simp [findCompletion]
  | cons x l ih =>
    by_cases h : x.cookie = c
    · simp [findCompletion, h]
    · simp only [findCompletion, h, if_false, List.forall_mem_cons, ne_eq, not_false_eq_true, true_and]
      refine Iff.trans ?_ ih
      cases findCompletion c l <;> simp

end Sys2Proof.Machine
end

