-- ==== Sys2Proof/Laws/Exec.lean ====
section
/-! SUPPORT. What each shared operation and each instruction can do, said once. -/

namespace Sys2Proof.Machine

/-! ### SEND -/

/-- Everything a SEND can do (R186 to R190): three refusals, a collision, or a transmission. -/
theorem sendRequest_cases (cmd : Byte) (p : Bytes) (n : Nat) (s : State) :
    (∃ code v, code ≠ .ok ∧ code ≠ .collision ∧ sendRequest cmd p n s = (⟨code, v⟩, emitResult code v s) ∧
      ¬ (s.sessState = .opened ∧ p.length ≤ 65535 ∧ pendingCount s < s.params.nPending)) ∨
    (s.sessState = .opened ∧ p.length ≤ 65535 ∧ pendingCount s < s.params.nPending ∧
      ptValid s.nextCookie s.pt = true ∧
      sendRequest cmd p n s = (⟨.collision, .num s.nextCookie.toNat⟩,
        emitResult .collision (.num s.nextCookie.toNat)
          (setCollision { s with nextCookie := s.nextCookie + 1#16 }))) ∨
    (s.sessState = .opened ∧ p.length ≤ 65535 ∧ pendingCount s < s.params.nPending ∧
      ptValid s.nextCookie s.pt = false ∧
      sendRequest cmd p n s = (⟨.ok, .num s.nextCookie.toNat⟩,
        emitResult .ok (.num s.nextCookie.toNat)
          (emitTx ⟨s.remoteHost, s.remotePort, encodeFrame cmd s.nextCookie s.localPort p⟩
            { s with nextCookie := s.nextCookie + 1#16, pt := ptSet s.nextCookie (s.now + n) s.pt }))) := by
  unfold sendRequest
  simp only [Config.maxPayload]
  by_cases h1 : s.sessState = .closed
  · exact .inl ⟨.notOpen, .absent, by simp, by simp, by simp [h1], by simp [h1]⟩
  have ho : s.sessState = .opened := by cases h : s.sessState <;> simp_all
  by_cases h2 : p.length > 65535
  · exact .inl ⟨.tooLong, .num p.length, by simp, by simp, by simp [ho, h2], by simp [Nat.not_le.2 h2]⟩
  by_cases h3 : pendingCount s ≥ s.params.nPending
  · exact .inl ⟨.tableFull, .absent, by simp, by simp, by simp [ho, h2, h3], by simp [h3]⟩
  have h2' : p.length ≤ 65535 := by omega
  have h3' : pendingCount s < s.params.nPending := by omega
  by_cases h4 : ptValid s.nextCookie s.pt = true
  · exact .inr (.inl ⟨ho, h2', h3', h4, by simp [ho, h2, h3, h4]⟩)
  · exact .inr (.inr ⟨ho, h2', h3', by simpa using h4, by simp [ho, h2, h3, h4]⟩)

/-- A request half changes the host's own fields and otherwise does what its SEND does. -/
theorem startCall_eq (kind : HostCallKind) (p : Bytes) (n : Option Nat) (s : State) :
    ∃ hc hr hl, startCall kind p n s =
      { (sendRequest kind.command p (n.getD Config.timeoutDefault) s).2 with
        hostCalls := hc, hostReturns := hr, logSink := hl } := by
  unfold startCall
  cases sendRequest kind.command p (n.getD Config.timeoutDefault) s with
  | mk r t =>
    dsimp only
    split <;> exact ⟨_, _, _, rfl⟩

/-! ### The completion half -/

/-- Taking a completion does what `TakesNext` says. -/
theorem nextCompletion_eq_some {c : U16} {s t : State} {k : Completion} :
    nextCompletion c s = some (k, t) ↔ TakesNext c s k t := by
  unfold nextCompletion TakesNext
  cases hk : findCompletion c s.hostKept with
  | some r =>
    obtain ⟨front, k', back⟩ := r
    have hs := findCompletion_eq_some.1 hk
    simp only [Option.some.injEq, Prod.mk.injEq]
    constructor
    · rintro ⟨rfl, rfl⟩
      exact .inl ⟨front, back, hs.1, hs.2.1, hs.2.2, rfl⟩
    · rintro (⟨f, b, h1, h2, h3, rfl⟩ | ⟨hn, -⟩)
      · cases hk.symm.trans (findCompletion_eq_some.2 ⟨h1, h2, h3⟩)
        exact ⟨rfl, rfl⟩
      · cases hk.symm.trans (findCompletion_eq_none.2 hn)
  | none =>
    have hn := findCompletion_eq_none.1 hk
    have hl : ∀ f b, s.hostKept = f ++ k :: b → k.cookie ≠ c := fun f b h => hn k (by simp [h])
    cases hc : findCompletion c s.cpl with
    | some r =>
      obtain ⟨front, k', back⟩ := r
      have hs := findCompletion_eq_some.1 hc
      simp only [Option.some.injEq, Prod.mk.injEq]
      constructor
      · rintro ⟨rfl, rfl⟩
        exact .inr ⟨hn, front, back, hs.1, hs.2.1, hs.2.2, rfl⟩
      · rintro (⟨f, b, h1, -, h3, -⟩ | ⟨-, f, b, h1, h2, h3, rfl⟩)
        · exact absurd h3 (hl f b h1)
        · cases hc.symm.trans (findCompletion_eq_some.2 ⟨h1, h2, h3⟩)
          exact ⟨rfl, rfl⟩
    | none =>
      constructor
      · intro h; cases h
      · rintro (⟨f, b, h1, -, h3, -⟩ | ⟨-, f, b, h1, h2, h3, -⟩)
        · exact absurd h3 (hl f b h1)
        · cases hc.symm.trans (findCompletion_eq_some.2 ⟨h1, h2, h3⟩)

/-- There is nothing to take exactly where no record, kept or on CPL, is of the cookie. -/
theorem nextCompletion_eq_none {c : U16} {s : State} :
    nextCompletion c s = none ↔ ∀ k ∈ s.hostKept ++ s.cpl, k.cookie ≠ c := by
  rw [List.forall_mem_append, ← findCompletion_eq_none, ← findCompletion_eq_none]
  unfold nextCompletion
  cases findCompletion c s.hostKept <;> cases findCompletion c s.cpl <;> simp

/-- Taking a completion changes CPL and the kept records, and nothing else. -/
theorem TakesNext.eq {c : U16} {s t : State} {k : Completion} (h : TakesNext c s k t) :
    ∃ l kept, t = { s with cpl := l, hostKept := kept } := by
  rcases h with ⟨f, b, -, -, -, h⟩ | ⟨-, f, b, -, -, -, h⟩ <;> exact ⟨_, _, h⟩

/-- CPL loses records from its front only (R31). -/
theorem TakesNext.cpl_suffix {c : U16} {s t : State} {k : Completion} (h : TakesNext c s k t) : t.cpl <:+ s.cpl := by
  rcases h with ⟨f, b, -, -, -, rfl⟩ | ⟨-, f, b, h1, -, -, rfl⟩
  · exact List.suffix_rfl
  · exact ⟨f ++ [k], by simp [h1]⟩

/-- No record but the one taken is lost or moves before another. -/
theorem TakesNext.sublist {c : U16} {s t : State} {k : Completion} (h : TakesNext c s k t) :
    (t.hostKept ++ t.cpl).Sublist (s.hostKept ++ s.cpl) := by
  rcases h with ⟨f, b, h1, -, -, rfl⟩ | ⟨-, f, b, h1, -, -, rfl⟩
  · rw [h1]
    exact ((List.Sublist.refl f).append (List.sublist_cons_self k b)).append (.refl _)
  · rw [h1, List.append_assoc]
    exact (List.Sublist.refl _).append ((List.Sublist.refl f).append (List.sublist_cons_self k b))

/-- Everything a completion half can do: nothing, or take the next completion of its cookie and return. -/
theorem finishCall_cases (reader : HostCallKind → Option (Bytes → Option HostValue)) (c : U16) (s : State) :
    finishCall reader c s = s ∨
    ∃ k l kept hc hr hl, TakesNext c s k { s with cpl := l, hostKept := kept } ∧
      finishCall reader c s =
        { s with cpl := l, hostKept := kept, hostCalls := hc, hostReturns := hr, logSink := hl } := by
  unfold finishCall
  split
  · exact .inl rfl
  · split
    · exact .inl rfl
    · split
      · exact .inl rfl
      · rename_i k t h
        have ht := nextCompletion_eq_some.1 h
        obtain ⟨l, kept, rfl⟩ := ht.eq
        refine .inr ⟨k, l, kept, ?_⟩
        unfold returnFrom
        split <;> exact ⟨_, _, _, ht, rfl⟩

/-- The oldest call of a cookie, found behind calls of other cookies. -/
theorem callOf_append {c : U16} {before after : List HostCall} {h : HostCall} (hb : ∀ x ∈ before, x.cookie ≠ c)
    (hc : h.cookie = c) : callOf c (before ++ h :: after) = some h := by
  induction before with
  | nil => simp [callOf, hc]
  | cons x b ih => simp [callOf, hb x (by simp), ih fun y hy => hb y (List.mem_cons_of_mem _ hy)]

theorem dropCall_append {c : U16} {before after : List HostCall} {h : HostCall} (hb : ∀ x ∈ before, x.cookie ≠ c)
    (hc : h.cookie = c) : dropCall c (before ++ h :: after) = before ++ after := by
  induction before with
  | nil => simp [dropCall, hc]
  | cons x b ih => simp [dropCall, hb x (by simp), ih fun y hy => hb y (List.mem_cons_of_mem _ hy)]

/-- The completion half of an outstanding call whose completion has come. -/
theorem finishCall_found {reader : HostCallKind → Option (Bytes → Option HostValue)} {kind : HostCallKind}
    {read : Bytes → Option HostValue} (hr : reader kind = some read) {c : U16} {s t : State}
    {before after : List HostCall} {k : Completion}
    (hcalls : s.hostCalls = before ++ ⟨c, kind⟩ :: after) (hb : ∀ x ∈ before, x.cookie ≠ c)
    (ht : TakesNext c s k t) :
    finishCall reader c s = returnFrom kind (judge kind read k) { t with hostCalls := before ++ after } := by
  have h1 : callOf c s.hostCalls = some ⟨c, kind⟩ := by rw [hcalls]; exact callOf_append hb rfl
  have h2 : dropCall c s.hostCalls = before ++ after := by rw [hcalls]; exact dropCall_append hb rfl
  simp only [finishCall, h1, hr, nextCompletion_eq_some.2 ht, h2]

/-! ### RECEIVE, EXPIRE -/

/-- Everything a RECEIVE can do (R192 to R195): drop with a log record, or complete a pending request. -/
theorem execReceive_cases (f : Bytes) (s : State) :
    (∃ r, execReceive f s = .next (emitLog r s)) ∨
    (∃ m, s.sessState = .opened ∧ decodeFrame f = .ok m ∧ ptValid m.cookie s.pt = true ∧
      execReceive f s = .next (emitCpl [⟨m.cookie, .response, some m⟩] { s with pt := ptClear m.cookie s.pt })) := by
  unfold execReceive
  split
  · exact .inl ⟨_, rfl⟩
  · rename_i ho
    split
    · exact .inl ⟨_, rfl⟩
    · rename_i m hm
      split
      · exact .inr ⟨m, ho, hm, ‹_›, rfl⟩
      · exact .inl ⟨_, rfl⟩

theorem expirable_iff (c : U16) (s : State) : expirable c s = true ↔ ∃ d, ptLookup c s.pt = some d ∧ d ≤ s.now := by
  unfold expirable
  cases ptLookup c s.pt <;> simp

theorem mem_dueEntries {e : PtEntry} {s : State} : e ∈ dueEntries s ↔ e ∈ s.pt ∧ e.deadline ≤ s.now := by
  simp [dueEntries]

/-- Everything an EXPIRE can do (R196). -/
theorem execExpire_cases (c : U16) (s : State) :
    (expirable c s = false ∧ execExpire c s = .next s) ∨
    (expirable c s = true ∧ execExpire c s = .next (expireEntry c s)) := by
  unfold execExpire
  cases h : expirable c s <;> simp

/-- What the block does left alone: nothing, or the EXPIRE of a due entry. -/
theorem ownStep_cases (s : State) :
    (dueEntries s = [] ∧ ownStep s = s) ∨
    ∃ e ∈ dueEntries s, ownStep s = expireEntry e.cookie (drawn s) := by
  by_cases h : dueEntries s = []
  · exact .inl ⟨h, by simp [ownStep, expireChoice, h, pickOne]⟩
  · obtain ⟨e, he⟩ := pickOne_isSome h (Config.expirePick s.freeCount)
    exact .inr ⟨e, pickOne_mem he, by simp [ownStep, expireChoice, he]⟩

end Sys2Proof.Machine
end

