-- ==== Sys2Proof/Laws/Effect.lean ====
section
/-! SUPPORT. What an instruction can do, said once for all of them: `exec_effect`. A claim about every instruction splits
into the cases of `Effect`. -/

namespace Sys2Proof.Machine

/-- The effects an instruction can have; an instruction that is not named in a case can have that effect on some
operands. -/
inductive Effect (i : Instr) (s : State) : State → Prop
  /-- at most records on RESULT and STATUS -/
  | answers (rs : List ResultRecord) (st : List StatusRecord) (hs : i.issuesSend = false)
      (ht : i.takesCompletion = false) (hr : i ≠ .reset) :
      Effect i s { s with result := s.result ++ rs, status := s.status ++ st }
  /-- CRC_CLEAR and CRC_UPDATE -/
  | crc (a : U16) (rs : List ResultRecord) (hi : i = .crcClear ∨ ∃ d, i = .crcUpdate d) :
      Effect i s { s with crcAcc := a, result := s.result ++ rs }
  /-- OPEN of a closed session with a remote host -/
  | opens (p : U16) (h : Addr) (hi : i = .openSession p) (hc : s.sessState = .closed) (hh : s.remoteHost = some h) :
      Effect i s { s with
        sessState := .opened
        localPort := p
        status := s.status ++ [⟨.ok, []⟩]
        result := s.result ++ [⟨.ok, .num 0⟩] }
  /-- CLOSE of an open session -/
  | closes (order : List PtEntry) (hi : i = .closeSession) (ho : s.sessState = .opened) (hp : order.Perm s.pt) (n : Nat)
      (rs : List ResultRecord) :
      Effect i s { s with
        cpl := s.cpl ++ order.map abortOf
        pt := []
        sessState := .closed
        localPort := 0x0000#16
        result := s.result ++ rs
        freeCount := n }
  /-- one SEND, alone or as the request of a host program -/
  | sends (cmd : Byte) (p : Bytes) (n : Nat) (hc : List HostCall) (hr : List HostReturn) (hl : List SinkLine)
      (hi : i.issuesSend = true) :
      Effect i s { (sendRequest cmd p n s).2 with hostCalls := hc, hostReturns := hr, logSink := hl }
  /-- a datagram dropped with a log record -/
  | drops (f : Bytes) (r : LogRecord) (hi : i = .receive f) : Effect i s (emitLog r s)
  /-- a datagram that completes a pending request -/
  | responds (f : Bytes) (m : Message) (hi : i = .receive f) (ho : s.sessState = .opened) (hd : decodeFrame f = .ok m)
      (hv : ptValid m.cookie s.pt = true) :
      Effect i s (emitCpl [⟨m.cookie, .response, some m⟩] { s with pt := ptClear m.cookie s.pt })
  /-- TICK -/
  | ticks (hi : i = .tick) : Effect i s { s with now := s.now + 1 }
  /-- an enabled EXPIRE -/
  | expires (c : U16) (hi : i = .expire c) (he : expirable c s = true) : Effect i s (expireEntry c s)
  /-- CFG_REMOTE -/
  | configures (h : Addr) (p : U16) (rs : List ResultRecord) (hi : i = .cfgRemote h p) :
      Effect i s { s with remoteHost := some h, remotePort := p, result := s.result ++ rs }
  /-- the reset input -/
  | resets (hi : i = .reset) : Effect i s (resetRegisters (resolveLost s))
  /-- a host program that waits on -/
  | waits (hi : i.takesCompletion = true) : Effect i s s
  /-- a host program that takes its completion and returns -/
  | returns (c : U16) (k : Completion) (l kept : List Completion) (hc : List HostCall) (hr : List HostReturn)
      (hl : List SinkLine) (hi : i.takesCompletion = true)
      (ht : TakesNext c s k { s with cpl := l, hostKept := kept }) :
      Effect i s { s with cpl := l, hostKept := kept, hostCalls := hc, hostReturns := hr, logSink := hl }

/-- An answer on RESULT alone. -/
theorem effect_emitResult {i : Instr} (s : State) (c : ResultCode) (v : Value) (hs : i.issuesSend = false)
    (ht : i.takesCompletion = false) (hr : i ≠ .reset) : Effect i s (emitResult c v s) := by
  have := Effect.answers (s := s) [⟨c, v⟩] [] hs ht hr
  simpa [emitResult] using this

theorem effect_same {i : Instr} (s : State) (hs : i.issuesSend = false) (ht : i.takesCompletion = false)
    (hr : i ≠ .reset) : Effect i s s := by
  have := Effect.answers (s := s) [] [] hs ht hr
  simpa using this

theorem effect_startCall {i : Instr} (kind : HostCallKind) (p : Bytes) (n : Option Nat) (s : State)
    (hi : i.issuesSend = true) : Effect i s (startCall kind p n s) := by
  obtain ⟨hc, hr, hl, h⟩ := startCall_eq kind p n s
  rw [h]
  exact .sends _ _ _ _ _ _ hi

theorem effect_finishCall {i : Instr} (reader : HostCallKind → Option (Bytes → Option HostValue)) (c : U16) (s : State)
    (hi : i.takesCompletion = true) : Effect i s (finishCall reader c s) := by
  rcases finishCall_cases reader c s with h | ⟨k, l, kept, hc, hr, hl, ht, h⟩
  · rw [h]; exact .waits hi
  · rw [h]; exact .returns c k l kept hc hr hl hi ht

/-- What an instruction that answers a next state has done. -/
theorem exec_effect {i : Instr} {s t : State} (h : exec i s = .next t) : Effect i s t := by
  cases i with
  | crcClear => cases h; exact .crc _ _ (.inl rfl)
  | crcUpdate d => cases h; exact .crc _ _ (.inr ⟨d, rfl⟩)
  | crcRead => cases h; exact effect_emitResult s _ _ rfl rfl (by simp)
  | encode cmd cookie port p =>
    simp only [exec, execEncode] at h
    split at h <;> (cases h; exact effect_emitResult s _ _ rfl rfl (by simp))
  | decode f =>
    simp only [exec, execDecode] at h
    split at h <;> (cases h; exact effect_emitResult s _ _ rfl rfl (by simp))
  | openSession p =>
    simp only [exec, execOpenSession] at h
    split at h
    · cases h; exact effect_emitResult s _ _ rfl rfl (by simp)
    · rename_i hc
      split at h
      · cases h
        exact .answers [⟨.badConfig, .absent⟩] [⟨.badConfig, remoteHostNotConfigured⟩] rfl rfl (by simp)
      · cases h; exact .opens p _ rfl hc ‹_›
  | closeSession =>
    simp only [exec, execCloseSession] at h
    split at h
    · cases h; exact effect_emitResult s _ _ rfl rfl (by simp)
    · cases h; exact .closes (closeOrder s) rfl ‹_› (closeOrder_perm s) _ _
  | send cmd p n => cases h; exact .sends cmd p n _ _ _ rfl
  | receive f =>
    rcases execReceive_cases f s with ⟨r, hx⟩ | ⟨m, ho, hd, hv, hx⟩
    · cases hx.symm.trans h; exact .drops f r rfl
    · cases hx.symm.trans h; exact .responds f m rfl ho hd hv
  | tick => cases h; exact .ticks rfl
  | ioError d =>
    cases h
    have := Effect.answers (i := .ioError d) (s := s) [] [⟨.connectionFailure, d⟩] rfl rfl (by simp)
    simpa [emitStatus] using this
  | cfgRemote h' p => cases h; exact .configures h' p _ rfl
  | csrRead n =>
    simp only [exec, execCsrRead] at h
    split at h <;> (cases h; exact effect_emitResult s _ _ rfl rfl (by simp))
  | reserved0 => cases h; exact effect_emitResult s _ _ rfl rfl (by simp)
  | reservedE => cases h; exact effect_emitResult s _ _ rfl rfl (by simp)
  | reservedF => cases h; exact effect_emitResult s _ _ rfl rfl (by simp)
  | expire c =>
    rcases execExpire_cases c s with ⟨_, hx⟩ | ⟨he, hx⟩
    · cases hx.symm.trans h; exact effect_same s rfl rfl (by simp)
    · cases hx.symm.trans h; exact .expires c rfl he
  | reset => cases h; exact .resets rfl
  | ping n => cases h; exact effect_startCall _ _ _ _ rfl
  | readgm n => cases h; exact effect_startCall _ _ _ _ rfl
  | writeoutmute ch m n => cases h; exact effect_startCall _ _ _ _ rfl
  | info n => cases h; exact effect_startCall _ _ _ _ rfl
  | standby a n => cases h; exact effect_startCall _ _ _ _ rfl
  | pingResponse c => cases h; exact effect_finishCall _ _ _ rfl
  | readgmResponse c => cases h; exact effect_finishCall _ _ _ rfl
  | writeoutmuteResponse c => cases h; exact effect_finishCall _ _ _ rfl
  | infoResponse c => cases h; exact effect_finishCall _ _ _ rfl
  | standbyResponse c => cases h; exact effect_finishCall _ _ _ rfl

/-- A run of one more step goes on from the state the step gives. -/
theorem run_succ_of_next (M : Host.Core) (n : Nat) {s t : M.State} (h : M.step s = .next t) :
    M.run (n + 1) s = M.run n t := by
  simp only [Host.Core.run, h]

theorem core_run_next {n : Nat} {s t : State} (h : step s = .next t) :
    Host.Core.run Sys2Proof.core (n + 1) s = Host.Core.run Sys2Proof.core n t :=
  run_succ_of_next Sys2Proof.core n h

end Sys2Proof.Machine
end

