-- ==== Sys2Proof/Laws/PerInstr.lean ====
section
/-! SUPPORT. Per instruction: parsing the record of a well-formed instruction, whatever follows it, gives the instruction
and what follows. -/

namespace Sys2Proof.Laws.ParseEncoded

def Statement (i : Instr) : Prop :=
  i.wellFormed = true → ∀ rest : Bytes, parse i.line (Sys2Proof.encode i ++ rest) = .ok (i, rest)

theorem crcClear : Statement .crcClear :=
  fun _ _ => rfl

theorem crcUpdate (d : Byte) : Statement (.crcUpdate d) := by
  intro _ rest
  simp [parse, Sys2Proof.encode, Instr.line, parseRequest, Bind.bind, Except.bind]

theorem crcRead : Statement .crcRead :=
  fun _ _ => rfl

theorem encode (cmd : Byte) (cookie port : U16) (payload : Bytes) : Statement (.encode cmd cookie port payload) := by
  intro _ rest
  simp [parse, Sys2Proof.encode, Instr.line, parseRequest, Bind.bind, Except.bind]

theorem decode (frame : Bytes) : Statement (.decode frame) := by
  intro _ rest
  simp [parse, Sys2Proof.encode, Instr.line, parseRequest, Bind.bind, Except.bind]

theorem openSession (localPort : U16) : Statement (.openSession localPort) := by
  intro _ rest
  simp [parse, Sys2Proof.encode, Instr.line, parseRequest, Bind.bind, Except.bind]

theorem closeSession : Statement .closeSession :=
  fun _ _ => rfl

theorem send (cmd : Byte) (payload : Bytes) (timeout : Nat) : Statement (.send cmd payload timeout) := by
  intro _ rest
  simp [parse, Sys2Proof.encode, Instr.line, parseRequest, Bind.bind, Except.bind]

theorem receive (frame : Bytes) : Statement (.receive frame) := by
  intro _ rest
  simp [parse, Sys2Proof.encode, Instr.line, parseRequest, Bind.bind, Except.bind]

theorem tick : Statement .tick :=
  fun _ _ => rfl

theorem ioError (detail : Text) : Statement (.ioError detail) := by
  intro _ rest
  simp [parse, Sys2Proof.encode, Instr.line, parseRequest, Bind.bind, Except.bind]

theorem cfgRemote (host : Addr) (port : U16) : Statement (.cfgRemote host port) := by
  intro _ rest
  simp [parse, Sys2Proof.encode, Instr.line, parseRequest, Bind.bind, Except.bind]

theorem csrRead (index : Byte) : Statement (.csrRead index) := by
  intro h rest
  have hi : index.toNat < 16 := of_decide_eq_true h
  simp [parse, Sys2Proof.encode, Instr.line, parseRequest, readU4, hi, Bind.bind, Except.bind]

theorem reserved0 : Statement .reserved0 :=
  fun _ _ => rfl

theorem reservedE : Statement .reservedE :=
  fun _ _ => rfl

theorem reservedF : Statement .reservedF :=
  fun _ _ => rfl

theorem expire (c : U16) : Statement (.expire c) := by
  intro _ rest
  simp [parse, Sys2Proof.encode, Instr.line, Bind.bind, Except.bind]

theorem reset : Statement .reset :=
  fun _ _ => rfl

theorem ping (timeout : Option Nat) : Statement (.ping timeout) := by
  intro _ rest
  simp [parse, Sys2Proof.encode, Instr.line, parseCommand, Bind.bind, Except.bind]

theorem readgm (timeout : Option Nat) : Statement (.readgm timeout) := by
  intro _ rest
  simp [parse, Sys2Proof.encode, Instr.line, parseCommand, Bind.bind, Except.bind]

theorem writeoutmute (channel : Byte) (mute : Bool) (timeout : Option Nat) : Statement (.writeoutmute channel mute timeout) := by
  intro _ rest
  simp [parse, Sys2Proof.encode, Instr.line, parseCommand, Bind.bind, Except.bind]

theorem info (timeout : Option Nat) : Statement (.info timeout) := by
  intro _ rest
  simp [parse, Sys2Proof.encode, Instr.line, parseCommand, Bind.bind, Except.bind]

theorem standby (action : StandbyAction) (timeout : Option Nat) : Statement (.standby action timeout) := by
  intro _ rest
  simp [parse, Sys2Proof.encode, Instr.line, parseCommand, Bind.bind, Except.bind]

theorem pingResponse (c : U16) : Statement (.pingResponse c) := by
  intro _ rest
  simp [parse, Sys2Proof.encode, Instr.line, parseCommand, Bind.bind, Except.bind]

theorem readgmResponse (c : U16) : Statement (.readgmResponse c) := by
  intro _ rest
  simp [parse, Sys2Proof.encode, Instr.line, parseCommand, Bind.bind, Except.bind]

theorem writeoutmuteResponse (c : U16) : Statement (.writeoutmuteResponse c) := by
  intro _ rest
  simp [parse, Sys2Proof.encode, Instr.line, parseCommand, Bind.bind, Except.bind]

theorem infoResponse (c : U16) : Statement (.infoResponse c) := by
  intro _ rest
  simp [parse, Sys2Proof.encode, Instr.line, parseCommand, Bind.bind, Except.bind]

theorem standbyResponse (c : U16) : Statement (.standbyResponse c) := by
  intro _ rest
  simp [parse, Sys2Proof.encode, Instr.line, parseCommand, Bind.bind, Except.bind]

end Sys2Proof.Laws.ParseEncoded
end

