-- ==== Sys2Proof/Tests/Slice0.lean ====
section
/-! SUPPORT. Tests: words written out from the code tables of 30_encoding.md, the vectors of 95_test_vectors.md (named in
each theorem's comment), and a witness for every statement that has hypotheses. -/

namespace Sys2Proof.Tests

open Sys2Proof.Machine

/-! ### Small states -/

/-- A field of the state an outcome gives. -/
def fieldAfter {α : Type} (f : State → α) : Host.Outcome State Fault Refusal → Option α
  | .next t => some (f t)
  | .fault _ => none
  | .refused _ => none

/-- The opaque host H of 95_test_vectors.md. -/
def hostH : Addr := ⟨[0x48#8]⟩

/-- 95_test_vectors.md's setup, open: REMOTE_HOST = H, REMOTE_PORT = 1234, LOCAL_PORT = 50000. -/
def openState : State :=
  { State.reset with sessState := .opened, localPort := 50000#16, remoteHost := some hostH }

/-- The same with a pending table and a clock. -/
def pendingState (pt : List PtEntry) (now : Nat) : State := { openState with pt := pt, now := now }

def closedWithRemote : State := { State.reset with remoteHost := some hostH }

/-- E1 of 95_test_vectors.md: the PING request with cookie 0. -/
def frameE1 : Bytes := [0x02#8, 0x00#8, 0x00#8, 0x00#8, 0x00#8, 0x00#8, 0x50#8, 0xC3#8, 0x00#8, 0x00#8, 0xFF#8, 0x03#8]

/-- E2: a PING reply for cookie 0. -/
def frameE2 : Bytes := [0x02#8, 0xFF#8, 0x00#8, 0x00#8, 0x00#8, 0x00#8, 0xD2#8, 0x04#8, 0x00#8, 0x00#8, 0x00#8, 0x03#8]

/-- E6: a STANDBY reply for cookie 1. -/
def frameE6 : Bytes := [0x02#8, 0xF1#8, 0x01#8, 0x00#8, 0x04#8, 0x00#8, 0xD2#8, 0x04#8, 0x01#8, 0x02#8, 0x00#8, 0x00#8,
  0xA0#8, 0x3C#8, 0x0E#8, 0x03#8]

/-- X7: E1 with a wrong complement. -/
def frameX7 : Bytes := [0x02#8, 0x00#8, 0x00#8, 0x00#8, 0x00#8, 0x00#8, 0x50#8, 0xC3#8, 0x00#8, 0x00#8, 0xFE#8, 0x03#8]

def messageE6 : Message := ⟨0xF1#8, 0x0001#16, 1234#16, [0x01#8, 0x02#8, 0x00#8, 0x00#8]⟩

def messageE2 : Message := ⟨0xFF#8, 0x0000#16, 1234#16, []⟩

def digits : Bytes := [0x31#8, 0x32#8, 0x33#8, 0x34#8, 0x35#8, 0x36#8, 0x37#8, 0x38#8, 0x39#8]

/-- `n` zero bytes, for the bounds of R151 and R158. -/
def zeros (n : Nat) : Bytes := List.replicate n 0x00#8

theorem zeros_length (n : Nat) : (zeros n).length = n := List.length_replicate

/-! ### WellFormed -/

/-- An index outside u4 is refused (R100, R201). -/
theorem test_wellFormed_refuses_csr_index_16 : (Instr.csrRead 0x10#8).wellFormed = false := by decide

theorem test_wellFormed_accepts_csr_index_15 : (Instr.csrRead 0x0F#8).wellFormed = true := by decide

/-! ### Decoding: words from R98 and R100 -/

theorem test_words_of_the_crc_unit :
    decode .request [0b00000001#8] = .ok .crcClear ∧ decode .request [0b00000010#8, 0xA5#8] = .ok (.crcUpdate 0xA5#8) ∧
    decode .request [0b00000011#8] = .ok .crcRead := by decide

theorem test_words_of_the_codec :
    decode .request [0b00000100#8, 0x07#8, 0xFE#8, 0xFF#8, 0x34#8, 0x12#8, 0x02#8, 0x11#8, 0x22#8] =
      .ok (.encode 0x07#8 0xFFFE#16 0x1234#16 [0x11#8, 0x22#8]) ∧
    decode .request [0b00000101#8, 0x02#8, 0x02#8, 0x03#8] = .ok (.decode [0x02#8, 0x03#8]) := by decide

theorem test_words_of_the_session :
    decode .request [0b00000110#8, 0x50#8, 0xC3#8] = .ok (.openSession 50000#16) ∧
    decode .request [0b00000111#8] = .ok .closeSession ∧
    decode .request [0b00001000#8, 0x0E#8, 0x01#8, 0x99#8, 0xAC#8, 0x02#8] = .ok (.send 0x0E#8 [0x99#8] 300) ∧
    decode .request [0b00001001#8, 0x01#8, 0x02#8] = .ok (.receive [0x02#8]) ∧
    decode .request [0b00001010#8] = .ok .tick ∧
    decode .request [0b00001011#8, 0x01#8, 0x45#8] = .ok (.ioError [0x45#8]) ∧
    decode .request [0b00001100#8, 0x01#8, 0x48#8, 0xD2#8, 0x04#8] = .ok (.cfgRemote hostH 1234#16) ∧
    decode .request [0b00001101#8, 0x06#8] = .ok (.csrRead 0x06#8) := by decide

theorem test_words_of_the_reserved_codes :
    decode .request [0b00000000#8] = .ok .reserved0 ∧ decode .request [0b00001110#8] = .ok .reservedE ∧
    decode .request [0b00001111#8] = .ok .reservedF := by decide

theorem test_words_without_a_code :
    decode .timer [0x05#8, 0x01#8] = .ok (.expire 0x0105#16) ∧ decode .reset [] = .ok .reset := by decide

theorem test_words_of_the_host_requests :
    decode .command [0b00000000#8, 0x00#8] = .ok (.ping none) ∧
    decode .command [0b00000001#8, 0x01#8, 0x64#8] = .ok (.readgm (some 100)) ∧
    decode .command [0b00000011#8, 0x01#8, 0x01#8, 0x00#8] = .ok (.writeoutmute 0x01#8 true none) ∧
    decode .command [0b00001011#8, 0x00#8] = .ok (.info none) ∧
    decode .command [0b00001110#8, 0x02#8, 0x00#8] = .ok (.standby .turnOff none) := by decide

theorem test_words_of_the_host_responses :
    decode .command [0b11111111#8, 0x05#8, 0x00#8] = .ok (.pingResponse 5#16) ∧
    decode .command [0b11111110#8, 0x05#8, 0x00#8] = .ok (.readgmResponse 5#16) ∧
    decode .command [0b11111100#8, 0x05#8, 0x00#8] = .ok (.writeoutmuteResponse 5#16) ∧
    decode .command [0b11110100#8, 0x05#8, 0x00#8] = .ok (.infoResponse 5#16) ∧
    decode .command [0b11110001#8, 0x05#8, 0x00#8] = .ok (.standbyResponse 5#16) := by decide

theorem test_words_rejected_by_name :
    decode .request [0x10#8] = .error (.noSuchOp 0x10#8) ∧ decode .command [0x02#8] = .error (.noSuchCommand 0x02#8) ∧
    decode .request [] = .error .emptyRecord ∧ decode .request [0x02#8] = .error .missingOperand ∧
    decode .request [0x0D#8, 0x10#8] = .error .badOperand ∧
    decode .request [0x01#8, 0x00#8] = .error .trailingBytes := by decide

theorem test_table_words :
    decodeTableWord 8 0x1 = some .crcClear ∧ decodeTableWord 8 0x8 = some (.send 0x00#8 [] 0) ∧
    decodeTableWord 8 0xF = some .reservedF ∧ decodeTableWord 8 0xFF = some (.pingResponse 0#16) ∧
    decodeTableWord 8 0xF1 = some (.standbyResponse 0#16) ∧ decodeTableWord 8 0x80 = none := by decide

theorem test_fetch_word_runs_as_the_first_step :
    fieldAfter id (step (State.reset.withFetchWord 8 0xE)) =
      some { State.reset with result := [⟨.illegalOp, .absent⟩] } := by decide

/-! ### CRC functions (95_test_vectors.md 2.1) -/

/-- The bit-step trace of crcByte(0x0000, 0x01). -/
theorem test_crc_bit_trace :
    crcBit 0x0001#16 = 0xA001#16 ∧ crcBit 0xA001#16 = 0xF001#16 ∧ crcBit 0xF001#16 = 0xD801#16 ∧
    crcBit 0xC181#16 = 0xC0C1#16 := by decide

/-- C1, C3, C5, C6, C7, C8, C11, C13. -/
theorem test_crc16_vectors :
    crc16 [] = 0x0000#16 ∧ crc16 [0x01#8] = 0xC0C1#16 ∧ crc16 [0x02#8] = 0xC181#16 ∧ crc16 [0x80#8] = 0xA001#16 ∧
    crc16 [0xFF#8] = 0x4040#16 ∧ crc16 [0xFF#8, 0xFF#8] = 0xB001#16 ∧
    crc16 [0x01#8, 0x00#8, 0x00#8, 0x00#8] = 0xFC01#16 ∧ crc16 [0x01#8, 0x02#8, 0x00#8, 0x00#8] = 0x3CA0#16 := by decide +kernel

/-- S1. -/
theorem test_crc16_conformance : crc16 digits = 0xBB3D#16 := by decide +kernel

/-! ### CRC unit (2.2) -/

/-- U1. -/
theorem test_crcClear :
    fieldAfter (fun t => (t.crcAcc, t.result)) (exec .crcClear { State.reset with crcAcc := 0xBB3D#16 }) =
      some (0x0000#16, [⟨.ok, .num 0⟩]) := by decide

/-- U4. -/
theorem test_crcUpdate :
    fieldAfter (fun t => (t.crcAcc, t.result)) (exec (.crcUpdate 0x32#8) { State.reset with crcAcc := 0xD4C1#16 }) =
      some (0x4594#16, [⟨.ok, .num 0x4594⟩]) := by decide

/-- R135 on the value of S1. -/
theorem test_crcRead :
    fieldAfter (fun t => (t.crcAcc, t.result)) (exec .crcRead { State.reset with crcAcc := 0xBB3D#16 }) =
      some (0xBB3D#16, [⟨.ok, .num 0xBB3D⟩]) := by decide

/-! ### Codec (2.3, 2.4) -/

/-- E4. -/
theorem test_encode_E4 :
    fieldAfter (·.result) (exec (.encode 0x07#8 0xFFFF#16 0x0000#16 digits) State.reset) =
      some [⟨.ok, .frame [0x02#8, 0x07#8, 0xFF#8, 0xFF#8, 0x09#8, 0x00#8, 0x00#8, 0x00#8, 0x31#8, 0x32#8, 0x33#8, 0x34#8,
        0x35#8, 0x36#8, 0x37#8, 0x38#8, 0x39#8, 0x3D#8, 0xBB#8, 0xF8#8, 0x03#8]⟩] := by decide +kernel

/-- E5. -/
theorem test_encode_E5 :
    encodeFrame 0xAA#8 0x1234#16 0xABCD#16 [0x00#8] = [0x02#8, 0xAA#8, 0x34#8, 0x12#8, 0x01#8, 0x00#8, 0xCD#8, 0xAB#8,
      0x00#8, 0x00#8, 0x00#8, 0x55#8, 0x03#8] := by decide

/-- E6 decoded (R152). -/
theorem test_decode_E6 :
    fieldAfter (·.result) (exec (.decode frameE6) State.reset) = some [⟨.ok, .message messageE6⟩] := by decide +kernel

/-- X1, X3, X4, X5, X7, X8, X10, X11. -/
theorem test_decode_reasons :
    decodeFrame [] = .error .tooShort ∧
    decodeFrame [0x01#8, 0, 0, 0, 0, 0, 0x50#8, 0xC3#8, 0, 0, 0xFF#8, 0x03#8] = .error .badStart ∧
    decodeFrame [0x02#8, 0, 0, 0, 0, 0, 0x50#8, 0xC3#8, 0, 0, 0xFF#8, 0x04#8] = .error .badEnd ∧
    decodeFrame [0x02#8, 0, 0, 0, 1, 0, 0x50#8, 0xC3#8, 0, 0, 0xFF#8, 0x03#8] = .error .badLength ∧
    decodeFrame frameX7 = .error .badComplement ∧
    decodeFrame [0x02#8, 0, 0, 0, 0, 0, 0x50#8, 0xC3#8, 1, 0, 0xFF#8, 0x03#8] = .error .badCrc ∧
    decodeFrame [0x00#8, 0, 0, 0, 0, 0, 0x50#8, 0xC3#8, 0, 0, 0xFF#8, 0x00#8] = .error .badStart ∧
    decodeFrame [0x02#8, 0, 0, 0, 0, 0, 0x50#8, 0xC3#8, 1, 0, 0xFE#8, 0x03#8] = .error .badComplement := by decide

/-! ### Session (2.5) -/

/-- S-1. -/
theorem test_open_S1 :
    fieldAfter (fun t => (t.sessState, t.result)) (exec (.openSession 50000#16) State.reset) =
      some (.closed, [⟨.badConfig, .absent⟩]) := by decide

/-- S-3. -/
theorem test_open_S3 :
    fieldAfter (fun t => (t.sessState, t.localPort, t.status, t.result)) (exec (.openSession 50000#16) closedWithRemote) =
      some (.opened, 50000#16, [⟨.ok, []⟩], [⟨.ok, .num 0⟩]) := by decide

/-- S-21, but for the order of the two completions, which is open. -/
theorem test_close_S21 :
    fieldAfter (fun t => (t.sessState, t.localPort, t.pt, t.result)) (exec .closeSession (pendingState [⟨3#16, 9⟩, ⟨4#16, 9⟩] 0)) =
      some (.closed, 0#16, [], [⟨.ok, .num 2⟩]) := by decide

/-- S-7: the counter wraps. -/
theorem test_send_S7 :
    fieldAfter (fun t => (t.nextCookie, t.pt, t.tx, t.result))
        (exec (.send 0x00#8 [] 5) { openState with nextCookie := 0xFFFF#16 }) =
      some (0x0000#16, [⟨0xFFFF#16, 5⟩], [⟨some hostH, 1234#16, [0x02#8, 0x00#8, 0xFF#8, 0xFF#8, 0x00#8, 0x00#8, 0x50#8,
        0xC3#8, 0x00#8, 0x00#8, 0xFF#8, 0x03#8]⟩], [⟨.ok, .num 0xFFFF⟩]) := by decide

/-- S-10: the collision. -/
theorem test_send_S10 :
    fieldAfter (fun t => (t.nextCookie, t.faultCollision, t.pt))
        (exec (.send 0x00#8 [] 3) { pendingState [⟨5#16, 7⟩] 0 with nextCookie := 5#16 }) =
      some (6#16, true, [⟨5#16, 7⟩]) ∧
    fieldAfter (fun t => (t.tx, t.result))
        (exec (.send 0x00#8 [] 3) { pendingState [⟨5#16, 7⟩] 0 with nextCookie := 5#16 }) =
      some ([], [⟨.collision, .num 5⟩]) := by decide

/-- S-13. -/
theorem test_receive_S13 :
    fieldAfter (fun t => (t.pt, t.cpl, t.log)) (exec (.receive frameE6) (pendingState [⟨1#16, 9⟩] 0)) =
      some ([], [⟨1#16, .response, some messageE6⟩], []) := by decide +kernel

/-- S-14, S-15. -/
theorem test_receive_S14_S15 :
    fieldAfter (·.log) (exec (.receive frameE6) openState) = some [⟨.debug, .dropUnmatched, .cookie 1#16⟩] ∧
    fieldAfter (·.log) (exec (.receive frameX7) openState) = some [⟨.warn, .dropInvalid, .reason .badComplement⟩] := by
  decide +kernel

/-- S-18. -/
theorem test_tick_S18 : fieldAfter (·.now) (exec .tick (pendingState [⟨5#16, 100⟩] 99)) = some 100 := by decide

/-- S-17: "no step". -/
theorem test_expire_S17 :
    fieldAfter id (exec (.expire 5#16) (pendingState [⟨5#16, 100⟩] 99)) = some (pendingState [⟨5#16, 100⟩] 99) := by
  decide

/-- S-19. -/
theorem test_expire_S19 :
    fieldAfter (fun t => (t.pt, t.cpl)) (exec (.expire 5#16) (pendingState [⟨5#16, 100⟩] 100)) =
      some ([], [⟨5#16, .timeout, none⟩]) := by decide

/-- S-23: still OPEN. -/
theorem test_ioError_S23 :
    fieldAfter (fun t => (t.sessState, t.status)) (exec (.ioError [0x45#8]) openState) =
      some (.opened, [⟨.connectionFailure, [0x45#8]⟩]) := by decide

/-- S-2. -/
theorem test_cfgRemote_S2 :
    fieldAfter (fun t => (t.remoteHost, t.remotePort, t.result)) (exec (.cfgRemote hostH 1234#16) State.reset) =
      some (some hostH, 1234#16, [⟨.ok, .num 0⟩]) := by decide

/-- S-24, S-25. -/
theorem test_csrRead_S24_S25 :
    fieldAfter (·.result) (exec (.csrRead 0x2#8) State.reset) = some [⟨.ok, .num 1234⟩] ∧
    fieldAfter (·.result) (exec (.csrRead 0x9#8) State.reset) = some [⟨.illegalCsr, .num 9⟩] := by decide

/-- R34: the STATUS CSR with both bits set. -/
theorem test_csrRead_status :
    fieldAfter (·.result) (exec (.csrRead 0x0#8) { openState with faultCollision := true }) = some [⟨.ok, .num 3⟩] := by
  decide

/-- S-26, for each reserved code (R102). -/
theorem test_reserved_S26 :
    fieldAfter (·.result) (exec .reserved0 openState) = some [⟨.illegalOp, .absent⟩] ∧
    fieldAfter (·.result) (exec .reservedE openState) = some [⟨.illegalOp, .absent⟩] ∧
    fieldAfter (·.result) (exec .reservedF openState) = some [⟨.illegalOp, .absent⟩] := by decide

/-- R321. -/
theorem test_reset :
    fieldAfter id (exec .reset { pendingState [⟨5#16, 7⟩] 3 with nextCookie := 6#16, result := [⟨.ok, .num 5⟩] }) =
      some { State.reset with result := [⟨.ok, .num 5⟩] } := by decide

/-! ### Host programs (2.6) -/

/-- O1's request: E1. -/
theorem test_ping_O1 :
    fieldAfter (fun t => (t.tx, t.hostCalls)) (exec (.ping (some 7)) openState) =
      some ([⟨some hostH, 1234#16, frameE1⟩], [⟨0#16, .ping⟩]) := by decide

/-- O14's request. -/
theorem test_writeoutmute_O14 :
    fieldAfter (·.tx) (exec (.writeoutmute 0x01#8 true (some 7)) { openState with nextCookie := 4#16 }) =
      some [⟨some hostH, 1234#16, [0x02#8, 0x03#8, 0x04#8, 0x00#8, 0x04#8, 0x00#8, 0x50#8, 0xC3#8, 0x01#8, 0x01#8, 0x00#8,
        0x00#8, 0x50#8, 0x3C#8, 0xFC#8, 0x03#8]⟩] := by decide +kernel

/-- The requests of O3, O4 and O13. -/
theorem test_info_readgm_standby_requests :
    fieldAfter (·.tx) (exec (.info (some 7)) { openState with nextCookie := 5#16 }) =
      some [⟨some hostH, 1234#16, [0x02#8, 0x0B#8, 0x05#8, 0, 0, 0, 0x50#8, 0xC3#8, 0, 0, 0xF4#8, 0x03#8]⟩] ∧
    fieldAfter (·.tx) (exec (.readgm (some 7)) { openState with nextCookie := 6#16 }) =
      some [⟨some hostH, 1234#16, [0x02#8, 0x01#8, 0x06#8, 0, 0, 0, 0x50#8, 0xC3#8, 0, 0, 0xFE#8, 0x03#8]⟩] ∧
    fieldAfter (·.tx) (exec (.standby .turnOff (some 7)) { openState with nextCookie := 3#16 }) =
      some [⟨some hostH, 1234#16, [0x02#8, 0x0E#8, 0x03#8, 0, 0x04#8, 0, 0x50#8, 0xC3#8, 0x02#8, 0, 0, 0, 0x01#8, 0xB8#8,
        0xF1#8, 0x03#8]⟩] := by decide +kernel

/-- A state in which one host program waits for a cookie and a completion stands on CPL. -/
def waitingState (c : U16) (kind : HostCallKind) (k : Completion) : State :=
  { openState with hostCalls := [⟨c, kind⟩], cpl := [k] }

def response (c : U16) (cmd : Byte) (p : Bytes) : Completion := ⟨c, .response, some ⟨cmd, c, 1234#16, p⟩⟩

/-- O1, O2. -/
theorem test_pingResponse_O1_O2 :
    fieldAfter (·.hostReturns) (exec (.pingResponse 0#16) (waitingState 0#16 .ping (response 0#16 0xFF#8 []))) =
      some [⟨.ping, .bool true⟩] ∧
    fieldAfter (·.hostReturns) (exec (.pingResponse 0#16) (waitingState 0#16 .ping (response 0#16 0xFE#8 []))) =
      some [⟨.ping, .bool false⟩] := by decide

/-- R31, R104: the record of another cookie is taken from CPL's front before, and kept for its own call, which then takes
it though CPL holds none of its cookie. -/
theorem test_pingResponse_takes_in_order :
    fieldAfter (fun t => (t.cpl, t.hostKept)) (exec (.pingResponse 2#16) { openState with
      hostCalls := [⟨2#16, .ping⟩], cpl := [response 1#16 0xFF#8 [], response 2#16 0xFF#8 [], ⟨3#16, .timeout, none⟩] }) =
      some ([⟨3#16, .timeout, none⟩], [response 1#16 0xFF#8 []]) ∧
    fieldAfter (fun t => (t.hostReturns, t.hostKept)) (exec (.pingResponse 1#16) { openState with
      hostCalls := [⟨1#16, .ping⟩], hostKept := [response 1#16 0xFF#8 []], cpl := [⟨3#16, .timeout, none⟩] }) =
      some ([⟨.ping, .bool true⟩], []) := by decide

/-- R284: a consumed LOG record and a host program's line reach one sink. -/
theorem test_log_sink :
    fieldAfter (·.logSink) (step { State.reset with
      inputs := [.takeFront .log], log := [⟨.debug, .dropClosed, .length 3⟩],
      logSink := [.host ⟨.ping, .sendFailed .notOpen⟩] }) =
      some [.host ⟨.ping, .sendFailed .notOpen⟩, .block ⟨.debug, .dropClosed, .length 3⟩] ∧
    fieldAfter (·.logSink) (exec (.ping (some 1)) State.reset) = some [.host ⟨.ping, .sendFailed .notOpen⟩] := by decide

/-- R6: N_PENDING at the ends of its range. -/
theorem test_nPending_range :
    Params.default.nPending = 65536 ∧ { Params.default with nPendingLess1 := 0 }.nPending = 1 := by decide

/-- O4, O5: 52 bytes are enough, 51 are not. -/
theorem test_readChannelCount_O4_O5 :
    readChannelCount (0x01#8 :: 0x04#8 :: List.replicate 50 0x00#8) = some 0x04#8 ∧
    readChannelCount (0x01#8 :: 0x04#8 :: List.replicate 49 0x00#8) = none := by decide

/-- O6 to O10. -/
theorem test_readStandbyStatus_O6_to_O10 :
    readStandbyStatus [1, 2, 0, 0] = some ⟨true, false⟩ ∧ readStandbyStatus [1, 1, 0, 0] = some ⟨false, true⟩ ∧
    readStandbyStatus [1, 7, 0, 0] = some ⟨false, false⟩ ∧ readStandbyStatus [0, 2, 0, 0] = none ∧
    readStandbyStatus [1, 2] = none := by decide

/-- O11: a TIMEOUT completion makes getStandbyStatus return none. -/
theorem test_standbyResponse_O11 :
    fieldAfter (·.hostReturns)
        (exec (.standbyResponse 1#16) (waitingState 1#16 .getStandbyStatus ⟨1#16, .timeout, none⟩)) =
      some [⟨.getStandbyStatus, .standby none⟩] := by decide

/-- O12, O13. -/
theorem test_standbyResponse_O12_O13 :
    fieldAfter (·.hostReturns)
        (exec (.standbyResponse 2#16) (waitingState 2#16 (.setStandbyStatus true) (response 2#16 0xF1#8 [1, 0]))) =
      some [⟨.setStandbyStatus true, .bool true⟩] ∧
    fieldAfter (·.hostReturns)
        (exec (.standbyResponse 3#16) (waitingState 3#16 (.setStandbyStatus false) (response 3#16 0xF1#8 [0, 0]))) =
      some [⟨.setStandbyStatus false, .bool false⟩] := by decide

/-- O3's first field: "Acme" and 28 zero bytes. -/
theorem test_infoField_O3 :
    infoField (Text.ofChars ['A', 'c', 'm', 'e'] ++ List.replicate 124 0x00#8) 0 = Text.ofChars ['A', 'c', 'm', 'e'] := by
  decide

/-- O15. -/
theorem test_toggleMute_O15 :
    step { State.reset with inputs := [.toggleMute 0x01#8] } = .refused .toggleMute := rfl

/-! ### Witnesses: for every statement with hypotheses, states and operands that meet them

Each theorem is named after its statement, and has one part for each clause. -/

/-- The call of cookie 5 is lost (R322), that of cookie 6 is not pending. -/
theorem witness_ResetResolvesTheHostsLostWaits :
    let s := { pendingState [⟨5#16, 7⟩] 0 with hostCalls := [⟨5#16, .ping⟩, ⟨6#16, .getInfo⟩] }
    ∃ t, exec .reset s = .next t ∧ ptValid 5#16 s.pt = true ∧ ptValid 6#16 s.pt = false ∧
      t.hostReturns = [⟨.ping, .bool false⟩] := ⟨_, rfl, by decide⟩

theorem witness_CrcLinearityLeadingZeroAndResidue : ([0x01#8, 0x80#8] : Bytes).length = ([0xFF#8, 0x02#8] : Bytes).length :=
  rfl

theorem witness_CrcUnitAndSessionDoNotInterfere :
    (∃ t, Instr.tick ≠ .crcClear ∧ (∀ d, Instr.tick ≠ .crcUpdate d) ∧ Instr.tick ≠ .crcRead ∧ Instr.tick ≠ .reset ∧
      Instr.tick ≠ .csrRead 5#8 ∧ exec .tick openState = .next t) ∧
    (∃ i : Instr, i = .crcClear) := ⟨⟨_, by simp, by simp, by simp, by simp, by simp, rfl⟩, _, rfl⟩

/-- The longest payload, 65535 bytes, and the empty one. -/
theorem witness_EncodedFrameHasTheFieldsByOffset :
    (zeros 65535).length ≤ 65535 ∧ ([] : Bytes).length ≤ 65535 := by simp [zeros_length]

/-- Both sides of the limit: 65535 and 65536 bytes. -/
theorem witness_EncodeEmitsTheFrameOrTooLong :
    (zeros 65535).length ≤ 65535 ∧ 65535 < (zeros 65536).length := by
  simp [zeros_length]

/-- One buffer for each clause, in order: X2, X3, X4, X5, X7, X8, E1. -/
theorem witness_DecodeReportsTheFirstFailingCheck :
    let start (f : Bytes) : Prop := f[0]? = some 0x02#8
    let stop (f : Bytes) : Prop := f[f.length - 1]? = some 0x03#8
    let len (f : Bytes) : Nat := (le16 f 4).toNat
    let compl (f : Bytes) : Prop := f[10 + len f]? = some (~~~ f.getD 1 0#8)
    let crc (f : Bytes) : Prop := le16 f (8 + len f) = crc16 ((f.drop 8).take (len f))
    let x2 : Bytes := [0x02#8, 0, 0, 0, 0, 0, 0x50#8, 0xC3#8, 0, 0, 0xFF#8]
    let x3 : Bytes := [0x01#8, 0, 0, 0, 0, 0, 0x50#8, 0xC3#8, 0, 0, 0xFF#8, 0x03#8]
    let x4 : Bytes := [0x02#8, 0, 0, 0, 0, 0, 0x50#8, 0xC3#8, 0, 0, 0xFF#8, 0x04#8]
    let x5 : Bytes := [0x02#8, 0, 0, 0, 1, 0, 0x50#8, 0xC3#8, 0, 0, 0xFF#8, 0x03#8]
    let x8 : Bytes := [0x02#8, 0, 0, 0, 0, 0, 0x50#8, 0xC3#8, 1, 0, 0xFF#8, 0x03#8]
    x2.length < 12 ∧ (12 ≤ x3.length ∧ ¬ start x3) ∧ (12 ≤ x4.length ∧ start x4 ∧ ¬ stop x4) ∧
    (12 ≤ x5.length ∧ start x5 ∧ stop x5 ∧ x5.length ≠ 12 + len x5) ∧
    (12 ≤ frameX7.length ∧ start frameX7 ∧ stop frameX7 ∧ frameX7.length = 12 + len frameX7 ∧ ¬ compl frameX7) ∧
    (12 ≤ x8.length ∧ start x8 ∧ stop x8 ∧ x8.length = 12 + len x8 ∧ compl x8 ∧ ¬ crc x8) ∧
    (12 ≤ frameE1.length ∧ start frameE1 ∧ stop frameE1 ∧ frameE1.length = 12 + len frameE1 ∧ compl frameE1 ∧
      crc frameE1) := by decide

theorem witness_FrameRoundTrip : (zeros 65535).length ≤ 65535 := by simp [zeros_length]

/-- E6. -/
theorem witness_ValidFramesAreExactlyTheEncodings : decodeFrame frameE6 = .ok messageE6 := by decide +kernel

/-- `n` zero bytes between right markers. -/
def marked (n : Nat) : Bytes := 0x02#8 :: (zeros n ++ [0x03#8])

theorem marked_ends (n : Nat) :
    (marked n).length = n + 2 ∧ (marked n)[0]? = some 0x02#8 ∧ (marked n)[(marked n).length - 1]? = some 0x03#8 := by
  simp [marked, zeros_length]

/-- 65548 bytes between right markers. -/
theorem witness_OverlongBuffersAreInvalid :
    65547 < (marked 65546).length ∧ (marked 65546)[0]? = some 0x02#8 ∧
    (marked 65546)[(marked 65546).length - 1]? = some 0x03#8 :=
  ⟨(marked_ends 65546).1.symm ▸ Nat.lt_succ_self 65547, (marked_ends 65546).2⟩

theorem witness_OpenInItsThreeCases :
    (closedWithRemote.sessState = .closed ∧ closedWithRemote.remoteHost = some hostH) ∧
    (State.reset.sessState = .closed ∧ State.reset.remoteHost = none) ∧ openState.sessState = .opened := by decide

theorem witness_CloseAbortsEveryPendingRequest :
    (pendingState [⟨3#16, 9⟩, ⟨4#16, 9⟩] 0).sessState = .opened ∧ State.reset.sessState = .closed := by decide

/-- CLOSED; 65536 bytes (S-8); two valid entries at N_PENDING = 2 (S-9); PT[5] valid (S-10); the longest payload, at the
last place of a table of two. -/
theorem witness_SendInItsFiveCases :
    let two := { Params.default with nPendingLess1 := 1 }
    let full := { pendingState [⟨3#16, 9⟩, ⟨4#16, 9⟩] 0 with params := two }
    let busy := { pendingState [⟨5#16, 7⟩] 0 with nextCookie := 5#16 }
    let room := { pendingState [⟨3#16, 9⟩] 0 with params := two }
    State.reset.sessState = .closed ∧
    (openState.sessState = .opened ∧ 65535 < (zeros 65536).length) ∧
    (full.sessState = .opened ∧ ([] : Bytes).length ≤ 65535 ∧ full.params.nPending ≤ pendingCount full) ∧
    (busy.sessState = .opened ∧ (zeros 65535).length ≤ 65535 ∧ pendingCount busy < busy.params.nPending ∧
      ptValid busy.nextCookie busy.pt = true) ∧
    (room.sessState = .opened ∧ (zeros 65535).length ≤ 65535 ∧ pendingCount room < room.params.nPending ∧
      ptValid room.nextCookie room.pt = false) := by
  refine ⟨rfl, ⟨rfl, by simp [zeros_length]⟩, by decide, ⟨rfl, by simp [zeros_length], by decide, by decide⟩,
    rfl, by simp [zeros_length], by decide, by decide⟩

/-- The counter at its largest value, with the RESULT of an OK; and an instruction that issues no SEND. -/
theorem witness_CookieCounterAdvancesOnlyOnAllocation :
    (∃ t, exec (.send 0x00#8 [] 5) { openState with nextCookie := 0xFFFF#16 } = .next t ∧
      t.result = [] ++ [⟨.ok, .num 65535⟩]) ∧
    (∃ t, Instr.tick.issuesSend = false ∧ Instr.tick ≠ .reset ∧ exec .tick openState = .next t) :=
  ⟨⟨_, rfl, by decide⟩, _, rfl, by simp, rfl⟩

theorem witness_ConcurrentRequestsHaveDistinctCookies :
    let s := { pendingState [⟨0#16, 7⟩] 0 with nextCookie := 1#16 }
    ∃ t, exec (.send 0x00#8 [] 5) s = .next t ∧ t.result = s.result ++ [⟨.ok, .num 1⟩] ∧ ptLookup 0#16 s.pt = some 7 :=
  ⟨_, rfl, by decide, by decide⟩

theorem witness_ReceiveInItsFourCases :
    State.reset.sessState = .closed ∧
    (openState.sessState = .opened ∧ decodeFrame frameX7 = .error .badComplement) ∧
    (openState.sessState = .opened ∧ decodeFrame frameE6 = .ok messageE6 ∧ ptValid messageE6.cookie openState.pt = false) ∧
    ((pendingState [⟨1#16, 9⟩] 0).sessState = .opened ∧ decodeFrame frameE6 = .ok messageE6 ∧
      ptValid messageE6.cookie (pendingState [⟨1#16, 9⟩] 0).pt = true) := by decide +kernel

/-- E1 and E2 have the same cookie and differ in command and reply port. -/
theorem witness_DemultiplexerRoutesByCookieAlone :
    let s := pendingState [⟨0#16, 9⟩] 0
    decodeFrame frameE1 = .ok ⟨0x00#8, 0#16, 50000#16, []⟩ ∧ decodeFrame frameE2 = .ok messageE2 ∧
    (∃ t, exec (.receive frameE1) s = .next t ∧ ptValid 0#16 t.pt = false) ∧
    (∃ u, exec (.receive frameE2) { s with remoteHost := none, remotePort := 1#16 } = .next u ∧
      ptValid 0#16 u.pt = false) :=
  ⟨by decide, by decide, ⟨_, rfl, by decide⟩, ⟨_, rfl, by decide⟩⟩

theorem witness_DuplicateReplyIsDropped :
    let s := pendingState [⟨0#16, 9⟩] 0
    s.sessState = .opened ∧ decodeFrame frameE2 = .ok messageE2 ∧ ptValid messageE2.cookie s.pt = true ∧
    ∃ t, exec (.receive frameE2) s = .next t := ⟨rfl, by decide, by decide, _, rfl⟩

/-- NOW at the deadline. -/
theorem witness_ExpireCompletesADueEntry :
    ptLookup 5#16 (pendingState [⟨5#16, 100⟩] 100).pt = some 100 ∧ 100 ≤ (pendingState [⟨5#16, 100⟩] 100).now ∧
    ∃ t, exec (.expire 5#16) (pendingState [⟨5#16, 100⟩] 100) = .next t ∧ t.cpl ≠ (pendingState [⟨5#16, 100⟩] 100).cpl :=
  ⟨by decide, by decide, _, rfl, by decide⟩

/-- One tick before the deadline, and no entry at all. -/
theorem witness_ExpireNotEnabledChangesNothing :
    (∀ d, ptLookup 5#16 (pendingState [⟨5#16, 100⟩] 99).pt = some d → (pendingState [⟨5#16, 100⟩] 99).now < d) ∧
    (∀ d, ptLookup 6#16 (pendingState [⟨5#16, 100⟩] 99).pt = some d → (pendingState [⟨5#16, 100⟩] 99).now < d) := by
  refine ⟨?_, ?_⟩ <;> simp [pendingState, ptLookup]

/-- The eight index clauses; 7 and 255 bound the reserved ones, and no index meets two clauses. -/
theorem witness_CsrReadGivesTheView :
    (∃ x : Byte, x = 0x0#8) ∧ (∃ x : Byte, x = 0x1#8) ∧ (∃ x : Byte, x = 0x2#8) ∧ (∃ x : Byte, x = 0x3#8) ∧
    (∃ x : Byte, x = 0x4#8) ∧ (∃ x : Byte, x = 0x5#8) ∧ (∃ x : Byte, x = 0x6#8 ∧ ¬ 6 < x.toNat) ∧
    6 < (0x7#8 : Byte).toNat ∧ 6 < (0xFF#8 : Byte).toNat :=
  ⟨⟨_, rfl⟩, ⟨_, rfl⟩, ⟨_, rfl⟩, ⟨_, rfl⟩, ⟨_, rfl⟩, ⟨_, rfl⟩, ⟨_, rfl, by decide⟩, by decide, by decide⟩

/-- Each register changes in some step. -/
theorem witness_RegistersHaveOnlyTheirWriters :
    (∃ t, exec (.crcUpdate 0x01#8) State.reset = .next t ∧ t.crcAcc ≠ State.reset.crcAcc) ∧
    (∃ t, exec (.openSession 50000#16) closedWithRemote = .next t ∧ t.sessState ≠ closedWithRemote.sessState ∧
      t.localPort ≠ closedWithRemote.localPort) ∧
    (∃ t, exec (.cfgRemote hostH 1#16) State.reset = .next t ∧ t.remoteHost ≠ State.reset.remoteHost ∧
      t.remotePort ≠ State.reset.remotePort) ∧
    (∃ t, exec (.send 0x00#8 [] 3) { pendingState [⟨5#16, 7⟩] 0 with nextCookie := 5#16 } = .next t ∧
      t.nextCookie ≠ 5#16 ∧ t.faultCollision ≠ false) ∧
    (∃ t, exec .tick State.reset = .next t ∧ t.now ≠ State.reset.now) ∧
    (∃ t, exec (.expire 5#16) (pendingState [⟨5#16, 7⟩] 7) = .next t ∧ t.pt ≠ (pendingState [⟨5#16, 7⟩] 7).pt) :=
  ⟨⟨_, rfl, by decide⟩, ⟨_, rfl, by decide⟩, ⟨_, rfl, by decide⟩, ⟨_, rfl, by decide⟩, ⟨_, rfl, by decide⟩,
    ⟨_, rfl, by decide⟩⟩

theorem witness_CollisionFaultIsSticky :
    let busy := { pendingState [⟨5#16, 7⟩] 0 with nextCookie := 5#16 }
    (∃ t, exec .closeSession { busy with faultCollision := true } = .next t ∧ Instr.closeSession ≠ .reset) ∧
    (∃ t, exec (.send 0x00#8 [] 3) busy = .next t ∧ busy.faultCollision = false ∧ t.faultCollision = true) ∧
    (∃ t, exec .reset { busy with faultCollision := true } = .next t) :=
  ⟨⟨_, rfl, by simp⟩, ⟨_, rfl, by decide⟩, ⟨_, rfl⟩⟩

/-- SEND, and the request of a host program. -/
theorem witness_EachRequestIsTransmittedOnce :
    ∀ i ∈ [Instr.send 0x00#8 [] 3, .ping (some 3)], ∃ t, exec i openState = .next t ∧ i.issuesSend = true ∧
      t.result = openState.result ++ [⟨.ok, .num 0⟩] ∧ t.tx ≠ openState.tx := by
  simp only [List.forall_mem_cons, List.not_mem_nil, false_implies, implies_true, and_true]
  exact ⟨⟨_, rfl, rfl, by decide, by decide⟩, _, rfl, rfl, by decide, by decide⟩

theorem witness_PortsKeepTheirOrder :
    (∃ t, exec (.expire 5#16) { pendingState [⟨5#16, 7⟩] 7 with cpl := [⟨1#16, .timeout, none⟩] } = .next t ∧
      (Instr.expire 5#16).takesCompletion = false) ∧
    (∃ t, exec (.pingResponse 0#16) (waitingState 0#16 .ping (response 0#16 0xFF#8 [])) = .next t ∧
      (Instr.pingResponse 0#16).takesCompletion = true) := ⟨⟨_, rfl, rfl⟩, _, rfl, rfl⟩

theorem witness_SessionMovesOnlyByOpenCloseAndReset :
    (∃ t, exec (.openSession 1#16) closedWithRemote = .next t ∧ closedWithRemote.sessState = .closed ∧
      t.sessState = .opened) ∧
    (∃ t, exec .closeSession openState = .next t ∧ openState.sessState = .opened ∧ t.sessState = .closed) ∧
    (∃ t, exec .tick State.reset = .next t ∧
      (State.reset.sessState = .closed → ∀ c, ptValid c State.reset.pt = false) ∧ t.sessState = .closed) :=
  ⟨⟨_, rfl, rfl, rfl⟩, ⟨_, rfl, rfl, rfl⟩, _, rfl, fun _ _ => rfl, rfl⟩

/-- An entry cleared by each trigger, and one that stays. -/
theorem witness_APendingRequestIsResolvedByOneTrigger :
    let s := pendingState [⟨0#16, 7⟩, ⟨1#16, 9⟩] 7
    ptWf s.pt ∧ ptValid 0#16 s.pt = true ∧
    (∃ t, exec (.receive frameE2) s = .next t ∧ ptValid 0#16 t.pt = false ∧ ptValid 1#16 t.pt = true) ∧
    (∃ t, exec (.expire 0#16) s = .next t ∧ ptValid 0#16 t.pt = false) ∧
    (∃ t, exec .closeSession s = .next t ∧ ptValid 0#16 t.pt = false) ∧
    (∃ t, exec .reset s = .next t ∧ ptValid 0#16 t.pt = false) ∧
    (Instr.receive frameE2).takesCompletion = false :=
  ⟨by decide, by decide, ⟨_, rfl, by decide⟩, ⟨_, rfl, by decide⟩, ⟨_, rfl, by decide⟩, ⟨_, rfl, by decide⟩, rfl⟩

/-- A SEND and the reply to it. -/
theorem witness_EveryRequestIsResolvedExactlyOnce :
    ptWf openState.pt ∧ (∀ i ∈ [Instr.send 0x00#8 [] 5, .receive frameE2], i ≠ .reset ∧ i.takesCompletion = false) ∧
    ∃ t, execAll [.send 0x00#8 [] 5, .receive frameE2] openState = .next t ∧ CollisionFree t := by
  refine ⟨by decide, by simp [Instr.takesCompletion], _, rfl, rfl⟩

theorem witness_NoTimeoutBeforeTheDeadline :
    let s := pendingState [⟨5#16, 7⟩] 7
    ∃ t, exec (.expire 5#16) s = .next t ∧ t.cpl = s.cpl ++ [⟨5#16, .timeout, none⟩] := ⟨_, rfl, by decide⟩

theorem witness_ResponseAndTimeoutRace :
    let s := pendingState [⟨0#16, 7⟩] 7
    s.sessState = .opened ∧ decodeFrame frameE2 = .ok messageE2 ∧ ptLookup messageE2.cookie s.pt = some 7 ∧ 7 ≤ s.now := by
  decide

theorem witness_PendingCountCountsTheValidEntries : ptWf (pendingState [⟨0#16, 7⟩, ⟨0xFFFF#16, 9⟩] 0).pt := by decide

/-- An open session with a pending request, a completion and a datagram, and a step of it. -/
theorem witness_EveryStepKeepsTheInvariant :
    let s := { pendingState [⟨0#16, 7⟩] 7 with
      cpl := [⟨1#16, .response, some messageE6⟩], hostKept := [⟨1#16, .response, some messageE6⟩], tx := [⟨some hostH, 1234#16, frameE1⟩] }
    Inv s ∧ ∃ t, step s = .next t := by
  refine ⟨⟨by decide, ?_, ?_, ?_, by decide, ?_, ?_⟩, _, rfl⟩
  · intro h; cases h
  · intro h; cases h
  · intro _ h; cases h
  · intro k hk
    rcases List.mem_append.1 hk with hk | hk <;> (rw [List.mem_singleton.1 hk]; exact ⟨messageE6, rfl, rfl⟩)
  · intro d hd
    rw [List.mem_singleton.1 hd]
    exact ⟨by simp, ⟨0x00#8, 0#16, 50000#16, []⟩, by decide⟩

theorem witness_StepRunsTheDecodedInstruction :
    let s := { openState with inputs := [.present .request [0x0A#8], .takeFront .cpl] }
    s.inputs = .present .request [0x0A#8] :: [.takeFront .cpl] ∧ decode .request [0x0A#8] = .ok .tick := by decide

theorem witness_ConsumersTakeTheNextRecord :
    let s (e : Event) : State := { openState with
      inputs := [e], result := [⟨.ok, .num 0⟩], tx := [⟨some hostH, 1#16, frameE1⟩], log := [⟨.debug, .dropClosed, .length 1⟩]
      status := [⟨.ok, []⟩], cpl := [⟨1#16, .timeout, none⟩, ⟨2#16, .aborted, none⟩]
      hostKept := [⟨3#16, .timeout, none⟩] }
    ((s (.takeFront .result)).inputs = .takeFront .result :: [] ∧
      (s (.takeFront .result)).result = ⟨.ok, .num 0⟩ :: []) ∧
    ((s (.takeFront .tx)).inputs = .takeFront .tx :: [] ∧
      (s (.takeFront .tx)).tx = ⟨some hostH, 1#16, frameE1⟩ :: []) ∧
    ((s (.takeFront .cpl)).inputs = .takeFront .cpl :: [] ∧
      (s (.takeFront .cpl)).cpl = ⟨1#16, .timeout, none⟩ :: [⟨2#16, .aborted, none⟩]) ∧
    ((s (.takeFront .log)).inputs = .takeFront .log :: [] ∧
      (s (.takeFront .log)).log = ⟨.debug, .dropClosed, .length 1⟩ :: []) ∧
    ((s (.takeFront .status)).inputs = .takeFront .status :: [] ∧ (s (.takeFront .status)).status = ⟨.ok, []⟩ :: []) ∧
    ((s (.waitCpl 2#16)).inputs = .waitCpl 2#16 :: [] ∧
      TakesNext 2#16 { s (.waitCpl 2#16) with inputs := [] } ⟨2#16, .aborted, none⟩
        { s (.waitCpl 2#16) with
          inputs := [], cpl := [], hostKept := [⟨3#16, .timeout, none⟩, ⟨1#16, .timeout, none⟩] }) ∧
    ((s (.waitCpl 3#16)).inputs = .waitCpl 3#16 :: [] ∧
      TakesNext 3#16 { s (.waitCpl 3#16) with inputs := [] } ⟨3#16, .timeout, none⟩
        { s (.waitCpl 3#16) with inputs := [], hostKept := [] }) :=
  ⟨⟨rfl, rfl⟩, ⟨rfl, rfl⟩, ⟨rfl, rfl⟩, ⟨rfl, rfl⟩, ⟨rfl, rfl⟩,
    ⟨rfl, .inr ⟨by decide, [⟨1#16, .timeout, none⟩], [], rfl, by decide, rfl, rfl⟩⟩,
    rfl, .inl ⟨[], [], rfl, by decide, rfl, rfl⟩⟩

theorem witness_ToggleMuteIsRefused :
    ({ openState with inputs := [.toggleMute 0x01#8] } : State).inputs = .toggleMute 0x01#8 :: [] := rfl

/-- One tick before the only deadline, and at it. -/
theorem witness_WithNoInputOnlyExpireMoves :
    let early := pendingState [⟨5#16, 100⟩] 99
    let due := pendingState [⟨5#16, 100⟩] 100
    (ptWf early.pt ∧ early.inputs = [] ∧ ∀ e ∈ early.pt, early.now < e.deadline) ∧
    (ptWf due.pt ∧ due.inputs = [] ∧ ∃ e ∈ due.pt, e.deadline ≤ due.now) := by decide

theorem witness_DueRequestsAllTimeOut :
    let s := pendingState [⟨0#16, 7⟩, ⟨1#16, 8⟩, ⟨2#16, 9⟩] 8
    ptWf s.pt ∧ s.inputs = [] ∧ (dueEntries s).length = 2 := by decide

theorem witness_DecodeOfEncode :
    (Instr.csrRead 0x0F#8).wellFormed = true ∧ (Instr.send 0x0E#8 [0x01#8] 300).wellFormed = true := by decide

theorem witness_EncodeOfDecode :
    decode .request [0x08#8, 0x0E#8, 0x01#8, 0x99#8, 0xAC#8, 0x02#8] = .ok (.send 0x0E#8 [0x99#8] 300) := by decide

/-! Host programs -/

/-- The states of the two clauses of a request half, with each program's payload: one in which the request goes out, one
in which SEND fails. -/
theorem witness_StartsHostCall (cmd : Byte) (p : Bytes) (n : Nat) :
    (openState.sessState = .opened ∧ ([] : Bytes).length ≤ 65535 ∧ openState.params.infoReqPayload.length ≤ 65535 ∧
      openState.params.readgmReqPayload.length ≤ 65535 ∧ ([2#8, 0#8, 0#8, 0#8] : Bytes).length ≤ 65535 ∧
      pendingCount openState < openState.params.nPending ∧ ptValid openState.nextCookie openState.pt = false) ∧
    (∃ u, exec (.send cmd p n) State.reset = .next u ∧ u.result = State.reset.result ++ [⟨.notOpen, .absent⟩] ∧
      (⟨.notOpen, .absent⟩ : ResultRecord).code ≠ .ok) := ⟨by decide, _, rfl, rfl, by decide⟩

/-- What a completion half asks of the state, with calls of cookies `d` and `c` before and after. -/
def waitsAmongOthers (c d : U16) (kind : HostCallKind) (kept cpl : List Completion) : State :=
  { openState with hostCalls := [⟨d, .ping⟩] ++ ⟨c, kind⟩ :: [⟨c, .ping⟩], hostKept := kept, cpl := cpl }

/-- The completion on CPL behind another cookie's, and the completion among the kept ones, with others before and
after. -/
theorem witness_FinishesHostCall (c : U16) (kind : HostCallKind) (ck : CompletionKind) (m : Option Message) :
    let d := c + 1#16
    let k : Completion := ⟨c, ck, m⟩
    (∀ h ∈ ([⟨d, .ping⟩] : List HostCall), h.cookie ≠ c) ∧
    TakesNext c (waitsAmongOthers c d kind [] [⟨d, .timeout, none⟩, k, ⟨c, .aborted, none⟩]) k
      (waitsAmongOthers c d kind [⟨d, .timeout, none⟩] [⟨c, .aborted, none⟩]) ∧
    TakesNext c (waitsAmongOthers c d kind [⟨d, .timeout, none⟩, k, ⟨c, .aborted, none⟩] []) k
      (waitsAmongOthers c d kind [⟨d, .timeout, none⟩, ⟨c, .aborted, none⟩] []) :=
  ⟨by simp, .inr ⟨by simp [waitsAmongOthers], [⟨c + 1#16, .timeout, none⟩], _, rfl, by simp, rfl, rfl⟩,
    .inl ⟨[⟨c + 1#16, .timeout, none⟩], _, rfl, by simp, rfl, rfl⟩⟩

/-- A TIMEOUT completion meets the failure clause of every program. -/
theorem witness_FinishesHostCall_failure (code : Byte) (read : Bytes → Option HostValue) :
    ∀ v, ¬ Succeeds code read ⟨5#16, .timeout, none⟩ v := by
  rintro v ⟨m, hk, -⟩
  cases hk

theorem witness_PingProgram : Succeeds 0xFF#8 (fun _ => some (.bool true)) (response 0#16 0xFF#8 []) (.bool true) :=
  ⟨_, rfl, rfl, rfl, rfl⟩

/-- 128 bytes, the shortest reply. -/
theorem witness_GetInfoProgram :
    Succeeds 0xF4#8 (fun p => if 128 ≤ p.length then
        some (.info (some ⟨infoField p 0, infoField p 1, infoField p 2, infoField p 3⟩)) else none)
      (response 5#16 0xF4#8 (List.replicate 128 0x00#8)) (.info (some ⟨[], [], [], []⟩)) :=
  ⟨_, rfl, rfl, rfl, by decide +kernel⟩

/-- A NUL in the slot, and a slot without one in its first 31 bytes. -/
theorem witness_InfoFieldIsTheSlotUpToItsNul :
    let p : Bytes := Text.ofChars ['A', 'c', 'm', 'e'] ++ List.replicate 124 0x00#8
    let q : Bytes := List.replicate 128 0x41#8
    (128 ≤ p.length ∧ (∀ n < 4, (p[32 * 0 + n]?) ≠ some 0x00#8) ∧ p[32 * 0 + 4]? = some 0x00#8) ∧
    (128 ≤ q.length ∧ (∀ n < 31, (q[32 * 3 + n]?) ≠ some 0x00#8)) := by decide +kernel

/-- O4: 52 bytes. -/
theorem witness_GetChannelCountProgram :
    Succeeds 0xFE#8 (fun p => if 52 ≤ p.length ∧ p.getD 0 0#8 = 1#8 then some (.channelCount (some (p.getD 1 0#8))) else none)
      (response 6#16 0xFE#8 (0x01#8 :: 0x04#8 :: List.replicate 50 0x00#8)) (.channelCount (some 0x04#8)) :=
  ⟨_, rfl, rfl, rfl, by decide +kernel⟩

/-- O6. -/
theorem witness_GetStandbyStatusProgram :
    Succeeds 0xF1#8 (fun p => if 4 ≤ p.length ∧ p.getD 0 0#8 = 1#8 then
        some (.standby (some ⟨decide (p.getD 1 0#8 = 2#8), decide (p.getD 1 0#8 = 1#8)⟩)) else none)
      (response 1#16 0xF1#8 [1, 2, 0, 0]) (.standby (some ⟨true, false⟩)) :=
  ⟨_, rfl, rfl, rfl, by decide⟩

/-- One byte, the shortest reply. -/
theorem witness_SetStandbyStatusProgram :
    Succeeds 0xF1#8 (fun p => if 1 ≤ p.length ∧ p.getD 0 0#8 = 1#8 then some (.bool true) else none)
      (response 2#16 0xF1#8 [1]) (.bool true) :=
  ⟨_, rfl, rfl, rfl, by decide⟩

/-- Whatever the echo offsets, a reply of ones just long enough passes for channel 1 and mute. -/
theorem witness_SetOutputMuteProgram :
    Succeeds 0xFC#8
      (fun p => if p.getD 0 0#8 = 1#8 ∧ max Config.muteEchoChOff Config.muteEchoMuteOff < p.length ∧
          p.getD Config.muteEchoChOff 0#8 = 1#8 ∧ p.getD Config.muteEchoMuteOff 0#8 = (if true then 1#8 else 0#8)
        then some (.bool true) else none)
      (response 4#16 0xFC#8 (List.replicate (max Config.muteEchoChOff Config.muteEchoMuteOff + 1) 0x01#8))
      (.bool true) := by
  refine ⟨_, rfl, rfl, rfl, ?_⟩
  have h1 : Config.muteEchoChOff < max Config.muteEchoChOff Config.muteEchoMuteOff + 1 := by omega
  have h2 : Config.muteEchoMuteOff < max Config.muteEchoChOff Config.muteEchoMuteOff + 1 := by omega
  simp [List.getD_eq_getElem?_getD, h1, h2]

/-- O6, O7, then the three ways to be unknown: O10, O9, O8. -/
theorem witness_PowerStateOfAReply :
    (4 ≤ ([1, 2, 0, 0] : Bytes).length ∧ ([1, 2, 0, 0] : Bytes).getD 0 0#8 = 1#8 ∧ ([1, 2, 0, 0] : Bytes).getD 1 0#8 = 2#8) ∧
    (4 ≤ ([1, 1, 0, 0] : Bytes).length ∧ ([1, 1, 0, 0] : Bytes).getD 0 0#8 = 1#8 ∧ ([1, 1, 0, 0] : Bytes).getD 1 0#8 = 1#8) ∧
    ([1, 2, 0] : Bytes).length < 4 ∧ ([0, 2, 0, 0] : Bytes).getD 0 0#8 ≠ 1#8 ∧
    (([1, 7, 0, 0] : Bytes).getD 1 0#8 ≠ 1#8 ∧ ([1, 7, 0, 0] : Bytes).getD 1 0#8 ≠ 2#8) := by decide

/-- A call waits, and CPL and the kept records hold only other cookies' records. -/
theorem witness_AHostProgramWaitsForItsCompletion :
    let s := { openState with
      hostCalls := [⟨5#16, .ping⟩], cpl := [⟨6#16, .timeout, none⟩], hostKept := [⟨4#16, .timeout, none⟩] }
    (∀ k ∈ s.hostKept ++ s.cpl, k.cookie ≠ 5#16) ∧ Instr.pingResponse 5#16 ∈ [Instr.pingResponse 5#16] := by decide

end Sys2Proof.Tests
end

/-! PROOFS. The encoding family: the fields of an encoded frame by offset (R90), and the response table (R99). -/

namespace Sys2Proof.Machine

/-! ### Fields as bytes of their numbers -/

/-- R9, R93: both bytes as byte values of the number. -/
theorem lebytes16_eq_ofNat (v : U16) :
    lebytes16 v = [BitVec.ofNat 8 v.toNat, BitVec.ofNat 8 (v.toNat / 256)] := by
  have hlow : v.setWidth 8 = BitVec.ofNat 8 v.toNat := (BitVec.ofNat_toNat 8 v).symm
  have hhigh : (v >>> 8).setWidth 8 = BitVec.ofNat 8 (v.toNat / 256) := by
    apply BitVec.eq_of_toNat_eq
    simp [Nat.shiftRight_eq_div_pow]
  rw [lebytes16, hlow, hhigh]

/-- R92: on a byte, the complement is the distance from 0xFF. -/
theorem complementOf_eq_ofNat (cmd : Byte) : complementOf cmd = BitVec.ofNat 8 (255 - cmd.toNat) := by
  apply BitVec.eq_of_toNat_eq
  have hcmd := cmd.isLt
  simp only [complementOf, BitVec.toNat_not, BitVec.toNat_ofNat]
  omega

/-! ### The frame as header, payload and tail -/

/-- The eight bytes before the payload (R90), for a payload of `len` bytes. -/
def frameHeader (cmd : Byte) (cookie port : U16) (len : Nat) : Bytes :=
  [0x02#8, cmd, BitVec.ofNat 8 cookie.toNat, BitVec.ofNat 8 (cookie.toNat / 256),
    BitVec.ofNat 8 len, BitVec.ofNat 8 (len / 256),
    BitVec.ofNat 8 port.toNat, BitVec.ofNat 8 (port.toNat / 256)]

/-- The four bytes after the payload (R90), for a payload with CRC `crc`. -/
def frameTail (cmd : Byte) (crc : U16) : Bytes :=
  [BitVec.ofNat 8 crc.toNat, BitVec.ofNat 8 (crc.toNat / 256), BitVec.ofNat 8 (255 - cmd.toNat), 0x03#8]

@[simp] theorem frameHeader_length (cmd : Byte) (cookie port : U16) (len : Nat) :
    (frameHeader cmd cookie port len).length = 8 := rfl

/-- The limit on the length is what makes the 16-bit length field exact. -/
theorem encodeFrame_eq_header_payload_tail (cmd : Byte) (cookie port : U16) {p : Bytes} (hp : p.length ≤ 65535) :
    encodeFrame cmd cookie port p = frameHeader cmd cookie port p.length ++ (p ++ frameTail cmd (crc16 p)) := by
  have hlen : (BitVec.ofNat 16 p.length).toNat = p.length := by
    rw [BitVec.toNat_ofNat]
    omega
  rw [encodeFrame, complementOf_eq_ofNat, lebytes16_eq_ofNat, lebytes16_eq_ofNat, lebytes16_eq_ofNat,
    lebytes16_eq_ofNat, hlen]
  simp [frameHeader, frameTail, Config.startMarker, Config.endMarker]

section
variable (cmd : Byte) (cookie port : U16) {p : Bytes} (hp : p.length ≤ 65535)
include hp

theorem getElem?_encodeFrame_header {i : Nat} (hi : i < 8) :
    (encodeFrame cmd cookie port p)[i]? = (frameHeader cmd cookie port p.length)[i]? := by
  rw [encodeFrame_eq_header_payload_tail cmd cookie port hp]
  exact List.getElem?_append_left hi

theorem payload_of_encodeFrame : ((encodeFrame cmd cookie port p).drop 8).take p.length = p := by
  rw [encodeFrame_eq_header_payload_tail cmd cookie port hp, List.drop_left' (frameHeader_length ..),
    List.take_left]

theorem getElem?_encodeFrame_tail {i k : Nat} (hi : i = 8 + p.length + k) :
    (encodeFrame cmd cookie port p)[i]? = (frameTail cmd (crc16 p))[k]? := by
  rw [encodeFrame_eq_header_payload_tail cmd cookie port hp, ← List.append_assoc,
    List.getElem?_append_right (by simp [hi])]
  simp [hi]

end

/-- Settles O9: the offsets below 8 are read in the header, those from 8 + the payload length in the tail. -/
theorem encodedFrameHasTheFieldsByOffset : Obligations.EncodedFrameHasTheFieldsByOffset := by
  intro cmd cookie port p hp
  have header {i : Nat} (hi : i < 8) := getElem?_encodeFrame_header cmd cookie port hp hi
  have tail {i : Nat} (k : Nat) (hi : i = 8 + p.length + k) := getElem?_encodeFrame_tail cmd cookie port hp hi
  exact ⟨_, rfl, encodeFrame_length cmd cookie port p,
    header (by decide), header (by decide), header (by decide), header (by decide),
    header (by decide), header (by decide), header (by decide), header (by decide),
    payload_of_encodeFrame cmd cookie port hp,
    tail 0 rfl, tail 1 (by omega), tail 2 (by omega), tail 3 (by omega)⟩

/-! ### Response codes -/

/-- The table of R98 as a list of (command, response code). -/
def responseTable : List (Byte × Byte) :=
  [(0x00#8, 0xFF#8), (0x01#8, 0xFE#8), (0x03#8, 0xFC#8), (0x0B#8, 0xF4#8), (0x0E#8, 0xF1#8)]

theorem mem_responseTable {cmd code : Byte} : (cmd, code) ∈ responseTable ↔
    (cmd = cmdPing ∧ code = 0xFF#8) ∨ (cmd = cmdReadgm ∧ code = 0xFE#8) ∨ (cmd = cmdWriteoutmute ∧ code = 0xFC#8) ∨
    (cmd = cmdInfo ∧ code = 0xF4#8) ∨ (cmd = cmdStandby ∧ code = 0xF1#8) := by
  simp [responseTable, cmdPing, cmdReadgm, cmdWriteoutmute, cmdInfo, cmdStandby]

/-- R98: the code of each row. -/
theorem responseCode_of_mem {cmd code : Byte} (h : (cmd, code) ∈ responseTable) : responseCode cmd = some code := by
  obtain ⟨rfl, rfl⟩ | ⟨rfl, rfl⟩ | ⟨rfl, rfl⟩ | ⟨rfl, rfl⟩ | ⟨rfl, rfl⟩ := mem_responseTable.1 h <;> rfl

/-- R99, R251: a command with a code is the command of a row. -/
theorem mem_of_responseCode {cmd code : Byte} (h : responseCode cmd = some code) : (cmd, code) ∈ responseTable := by
  rw [mem_responseTable]
  unfold responseCode at h
  split_ifs at h with hping hread hwrite hinfo hstandby
  · exact .inl ⟨hping, (Option.some.inj h).symm⟩
  · exact .inr (.inl ⟨hread, (Option.some.inj h).symm⟩)
  · exact .inr (.inr (.inl ⟨hwrite, (Option.some.inj h).symm⟩))
  · exact .inr (.inr (.inr (.inl ⟨hinfo, (Option.some.inj h).symm⟩)))
  · exact .inr (.inr (.inr (.inr ⟨hstandby, (Option.some.inj h).symm⟩)))

/-- Settles O50: each row has its code, and a command outside the five rows has none. -/
theorem responseCodesAreTheFixedTable : Obligations.ResponseCodesAreTheFixedTable :=
  fun _ _ => ⟨mem_of_responseCode, responseCode_of_mem⟩

end Sys2Proof.Machine

/-! PROOFS. The CRC family: the functions on numbers (R130 to R132), the conformance vector (R136), and the CRC unit's
CRC_CLEAR and CRC_READ (R133, R135). -/

namespace Sys2Proof.Machine

/-! ### The functions -/

theorem getLsbD_zero_iff_odd (c : U16) : c.getLsbD 0 = true ↔ c.toNat % 2 = 1 := by
  rw [BitVec.getLsbD, Nat.testBit_zero, decide_eq_true_iff]

/-- R130: on numbers, the shift is a halving and the low bit is the remainder. -/
theorem toNat_crcBit (c : U16) :
    (crcBit c).toNat = if c.toNat % 2 = 1 then (c.toNat / 2) ^^^ 0xA001 else c.toNat / 2 := by
  have hshift : (c >>> 1).toNat = c.toNat / 2 := by rw [BitVec.toNat_ushiftRight, Nat.shiftRight_one]
  by_cases hodd : c.toNat % 2 = 1
  · rw [crcBit, if_pos ((getLsbD_zero_iff_odd c).2 hodd), if_pos hodd, BitVec.toNat_xor, hshift]
    rfl
  · rw [crcBit, if_neg (mt (getLsbD_zero_iff_odd c).1 hodd), if_neg hodd, hshift]

theorem crcBits_eq_iterate (n : Nat) (c : U16) : crcBits n c = crcBit^[n] c := by
  induction n generalizing c with
  | zero => rfl
  | succ n ih => rw [crcBits, ih, Function.iterate_succ_apply]

/-- R131: the byte enters as its number. -/
theorem crcByte_eq_iterate (c : U16) (d : Byte) : crcByte c d = crcBit^[8] (c ^^^ BitVec.ofNat 16 d.toNat) := by
  rw [crcByte, crcBits_eq_iterate, BitVec.ofNat_toNat]

/-- R132: the last byte of a sequence is one byte step from the CRC of the bytes before it. -/
theorem crc16_append_singleton (s : Bytes) (d : Byte) : crc16 (s ++ [d]) = crcByte (crc16 s) d := by
  rw [crc16, crcFrom_append, crcFrom_cons, crcFrom_nil, crc16]

/-- Settles O3: the shift form of each function against the division, the iterate and the last byte. -/
theorem crcIsTheReflectedShiftRegister : Obligations.CrcIsTheReflectedShiftRegister :=
  ⟨toNat_crcBit, crcByte_eq_iterate, rfl, crc16_append_singleton⟩

/-- Settles O4: 72 bit steps on closed words, evaluated in the kernel (the elaborator runs out of depth). -/
theorem crcConformanceVector : Obligations.CrcConformanceVector := by
  unfold Obligations.CrcConformanceVector
  decide +kernel

/-! ### The unit -/

/-- R133: CRC_CLEAR looks at no field, so not at SESS_STATE. -/
theorem exec_crcClear (s : State) :
    exec .crcClear s = .next (emitResult .ok (.num 0) { s with crcAcc := 0x0000#16 }) := rfl

/-- R135: CRC_READ looks at CRC_ACC only. -/
theorem exec_crcRead (s : State) : exec .crcRead s = .next (emitResult .ok (.num s.crcAcc.toNat) s) := rfl

/-- Settles O6: the unit's two rules, with the RESULT record written out. -/
theorem crcClearAndReadComplete : Obligations.CrcClearAndReadComplete :=
  fun s => ⟨exec_crcClear s, exec_crcRead s⟩

end Sys2Proof.Machine

/-! PROOFS. The frame codec family: ENCODE and DECODE as operations (R150, R151, R153, R157), the decoder check by
check (R152), and the round-trip law (R155). -/

namespace Sys2Proof.Machine

/-! ### The decoder, check by check (R152): each outcome, with the checks before it passed -/

section
variable {f : Bytes}

theorem decodeFrame_tooShort (hlen : f.length < 12) : decodeFrame f = .error .tooShort := if_pos hlen

variable (hlen : 12 ≤ f.length)
include hlen

theorem decodeFrame_badStart (hstart : byteAt f 0 ≠ Config.startMarker) : decodeFrame f = .error .badStart := by
  rw [decodeFrame, if_neg (Nat.not_lt.2 hlen), if_pos hstart]

variable (hstart : byteAt f 0 = Config.startMarker)
include hstart

theorem decodeFrame_badEnd (hend : byteAt f (f.length - 1) ≠ Config.endMarker) : decodeFrame f = .error .badEnd := by
  rw [decodeFrame, if_neg (Nat.not_lt.2 hlen), if_neg (not_not.2 hstart), if_pos hend]

variable (hend : byteAt f (f.length - 1) = Config.endMarker)
include hend

theorem decodeFrame_badLength (hL : f.length ≠ 12 + frameLength f) : decodeFrame f = .error .badLength := by
  rw [decodeFrame, if_neg (Nat.not_lt.2 hlen), if_neg (not_not.2 hstart), if_neg (not_not.2 hend), if_pos hL]

variable (hL : f.length = 12 + frameLength f)
include hL

theorem decodeFrame_badComplement (hcompl : byteAt f (10 + frameLength f) ≠ complementOf (byteAt f 1)) :
    decodeFrame f = .error .badComplement := by
  rw [decodeFrame, if_neg (Nat.not_lt.2 hlen), if_neg (not_not.2 hstart), if_neg (not_not.2 hend),
    if_neg (not_not.2 hL), if_pos hcompl]

variable (hcompl : byteAt f (10 + frameLength f) = complementOf (byteAt f 1))
include hcompl

/-- Past the fifth check only the CRC decides. -/
theorem decodeFrame_of_complement : decodeFrame f =
    if le16 f (8 + frameLength f) ≠ crc16 (framePayload f) then .error .badCrc else .ok (frameMessage f) := by
  rw [decodeFrame, if_neg (Nat.not_lt.2 hlen), if_neg (not_not.2 hstart), if_neg (not_not.2 hend),
    if_neg (not_not.2 hL), if_neg (not_not.2 hcompl)]

theorem decodeFrame_badCrc (hcrc : le16 f (8 + frameLength f) ≠ crc16 (framePayload f)) :
    decodeFrame f = .error .badCrc :=
  (decodeFrame_of_complement hlen hstart hend hL hcompl).trans (if_pos hcrc)

theorem decodeFrame_valid (hcrc : le16 f (8 + frameLength f) = crc16 (framePayload f)) :
    decodeFrame f = .ok (frameMessage f) :=
  (decodeFrame_of_complement hlen hstart hend hL hcompl).trans (if_neg (not_not.2 hcrc))

end

/-! ### What the decoder reads in an encoded frame -/

section
variable (cmd : Byte) (cookie port : U16) (p : Bytes)

theorem byteAt_encodeFrame_start : byteAt (encodeFrame cmd cookie port p) 0 = Config.startMarker := by
  rw [encodeFrame_eq]
  rfl

theorem byteAt_encodeFrame_command : byteAt (encodeFrame cmd cookie port p) 1 = cmd := by
  rw [encodeFrame_eq]
  rfl

theorem le16_encodeFrame_cookie : le16 (encodeFrame cmd cookie port p) 2 = cookie := by
  rw [encodeFrame_eq]
  exact pair16_bytes cookie

theorem le16_encodeFrame_length : le16 (encodeFrame cmd cookie port p) 4 = BitVec.ofNat 16 p.length := by
  rw [encodeFrame_eq]
  exact pair16_bytes _

theorem le16_encodeFrame_port : le16 (encodeFrame cmd cookie port p) 6 = port := by
  rw [encodeFrame_eq]
  exact pair16_bytes port

theorem byteAt_encodeFrame_tail (k : Nat) : byteAt (encodeFrame cmd cookie port p) (8 + p.length + k) =
    byteAt [(crc16 p).setWidth 8, (crc16 p >>> 8).setWidth 8, complementOf cmd, Config.endMarker] k := by
  rw [encodeFrame_eq, byteAt_tail]

theorem le16_encodeFrame_crc : le16 (encodeFrame cmd cookie port p) (8 + p.length) = crc16 p := by
  have hlow := byteAt_encodeFrame_tail cmd cookie port p 0
  have hhigh := byteAt_encodeFrame_tail cmd cookie port p 1
  rw [Nat.add_zero] at hlow
  rw [le16, hlow, hhigh]
  exact pair16_bytes _

variable {p} (hp : p.length ≤ 65535)
include hp

/-- The limit on the length is what makes the declared length the payload's. -/
theorem frameLength_encodeFrame : frameLength (encodeFrame cmd cookie port p) = p.length := by
  rw [frameLength, le16_encodeFrame_length, BitVec.toNat_ofNat, Nat.mod_eq_of_lt (by omega)]

theorem framePayload_encodeFrame : framePayload (encodeFrame cmd cookie port p) = p := by
  rw [framePayload, frameLength_encodeFrame cmd cookie port hp, slice, Nat.add_sub_cancel_left]
  exact payload_of_encodeFrame cmd cookie port hp

theorem frameMessage_encodeFrame : frameMessage (encodeFrame cmd cookie port p) = ⟨cmd, cookie, port, p⟩ := by
  rw [frameMessage, byteAt_encodeFrame_command, le16_encodeFrame_cookie, le16_encodeFrame_port,
    framePayload_encodeFrame cmd cookie port hp]

end

/-- Settles O12: an encoded frame passes each of the six checks, and its fields are the operands. -/
theorem frameRoundTrip : Obligations.FrameRoundTrip := by
  intro cmd cookie port p hp
  have hsize := encodeFrame_length cmd cookie port p
  have hL := frameLength_encodeFrame cmd cookie port hp
  have hpayload := framePayload_encodeFrame cmd cookie port hp
  have tail {i : Nat} (k : Nat) (hi : i = 8 + p.length + k) := hi ▸ byteAt_encodeFrame_tail cmd cookie port p k
  rw [← frameMessage_encodeFrame cmd cookie port hp]
  apply decodeFrame_valid
  case hlen => omega
  case hstart => exact byteAt_encodeFrame_start cmd cookie port p
  case hend => exact tail 3 (by omega)
  case hL => rw [hL, hsize]
  case hcompl =>
    rw [hL, byteAt_encodeFrame_command]
    exact tail 2 (by omega)
  case hcrc => rw [hL, hpayload, le16_encodeFrame_crc]

/-! ### The operations -/

section
variable {cmd : Byte} {cookie port : U16} {p f : Bytes} {m : Message} {r : DecodeReason} (s : State)

/-- R150. -/
theorem exec_encode_of_le (hp : p.length ≤ 65535) :
    exec (.encode cmd cookie port p) s = .next (emitResult .ok (.frame (encodeFrame cmd cookie port p)) s) :=
  if_pos hp

/-- R151. -/
theorem exec_encode_of_gt (hp : 65535 < p.length) :
    exec (.encode cmd cookie port p) s = .next (emitResult .tooLong (.num p.length) s) :=
  if_neg (Nat.not_le.2 hp)

/-- R153, for a valid frame. -/
theorem exec_decode_of_ok (h : decodeFrame f = .ok m) :
    exec (.decode f) s = .next (emitResult .ok (.message m) s) := by
  simp [exec, execDecode, h]

/-- R153, for an invalid frame. -/
theorem exec_decode_of_error (h : decodeFrame f = .error r) :
    exec (.decode f) s = .next (emitResult .invalid (.reason r) s) := by
  simp [exec, execDecode, h]

end

/-- In range, the byte read is the byte there. -/
theorem byteAt_eq_iff {s : Bytes} {i : Nat} {b : Byte} (h : i < s.length) : byteAt s i = b ↔ s[i]? = some b := by
  rw [byteAt_of_lt h, Option.some.injEq]

theorem framePayload_eq (f : Bytes) : framePayload f = (f.drop 8).take (le16 f 4).toNat := by
  rw [framePayload, slice, Nat.add_sub_cancel_left, frameLength]

/-- Settles O11: the decoder check by check, each byte it reads being in range by the checks before. -/
theorem decodeReportsTheFirstFailingCheck : Obligations.DecodeReportsTheFirstFailingCheck := by
  intro f s answer len start stop compl crc
  have invalid {r : DecodeReason} (h : decodeFrame f = .error r) : answer ⟨.invalid, .reason r⟩ :=
    exec_decode_of_error s h
  have hstart (hlen : 12 ≤ f.length) : byteAt f 0 = Config.startMarker ↔ start := byteAt_eq_iff (by omega)
  have hstop (hlen : 12 ≤ f.length) : byteAt f (f.length - 1) = Config.endMarker ↔ stop := byteAt_eq_iff (by omega)
  have hcompl (hL : f.length = 12 + len) : byteAt f (10 + len) = complementOf (byteAt f 1) ↔ compl :=
    byteAt_eq_iff (by omega)
  have hcrc : le16 f (8 + len) = crc16 (framePayload f) ↔ crc := by rw [framePayload_eq]
  refine ⟨fun hn => invalid (decodeFrame_tooShort hn), fun hn h0 => ?badStart, fun hn h0 h1 => ?badEnd,
    fun hn h0 h1 hL => ?badLength, fun hn h0 h1 hL h2 => ?badComplement, fun hn h0 h1 hL h2 h3 => ?badCrc,
    fun hn h0 h1 hL h2 h3 => ?valid⟩
  case badStart => exact invalid (decodeFrame_badStart hn (mt (hstart hn).1 h0))
  case badEnd => exact invalid (decodeFrame_badEnd hn ((hstart hn).2 h0) (mt (hstop hn).1 h1))
  case badLength => exact invalid (decodeFrame_badLength hn ((hstart hn).2 h0) ((hstop hn).2 h1) hL)
  case badComplement =>
    exact invalid (decodeFrame_badComplement hn ((hstart hn).2 h0) ((hstop hn).2 h1) hL (mt (hcompl hL).1 h2))
  case badCrc =>
    exact invalid (decodeFrame_badCrc hn ((hstart hn).2 h0) ((hstop hn).2 h1) hL ((hcompl hL).2 h2) (mt hcrc.1 h3))
  case valid =>
    have hok := decodeFrame_valid hn ((hstart hn).2 h0) ((hstop hn).2 h1) hL ((hcompl hL).2 h2) (hcrc.2 h3)
    rw [frameMessage, framePayload_eq] at hok
    exact exec_decode_of_ok s hok

/-- Settles O15: the length of the payload, or the outcome of the decoder, gives the record. -/
theorem codecIsPure : Obligations.CodecIsPure := by
  constructor
  · intro cmd cookie port p
    obtain hp | hp := le_or_gt p.length 65535
    · exact ⟨_, fun s => exec_encode_of_le s hp⟩
    · exact ⟨_, fun s => exec_encode_of_gt s hp⟩
  · intro f
    cases hf : decodeFrame f with
    | ok m => exact ⟨_, fun s => exec_decode_of_ok s hf⟩
    | error r => exact ⟨_, fun s => exec_decode_of_error s hf⟩

/-- Settles O10: the two cases of ENCODE, the frame being R150's by definition. -/
theorem encodeEmitsTheFrameOrTooLong : Obligations.EncodeEmitsTheFrameOrTooLong :=
  fun _ _ _ _ s => ⟨exec_encode_of_le s, exec_encode_of_gt s⟩

end Sys2Proof.Machine

/-! PROOFS. The session demultiplexer family: OPEN and CLOSE (R181 to R185), SEND and the cookie counter (R186 to R191),
RECEIVE (R192 to R195, R207), EXPIRE (R196), TICK, IO_ERROR and CFG_REMOTE (R197, R199, R200), and CSR_READ (R201). -/

namespace Sys2Proof.Machine

/-! ### OPEN and CLOSE -/

section
variable {p : U16} {h : Addr} {s : State}

/-- R181. -/
theorem exec_openSession_of_remote (hc : s.sessState = .closed) (hh : s.remoteHost = some h) :
    exec (.openSession p) s = .next
      (emitResult .ok (.num 0) (emitStatus ⟨.ok, []⟩ { s with sessState := .opened, localPort := p })) := by
  simp [exec, execOpenSession, hc, hh]

/-- R182. -/
theorem exec_openSession_of_no_remote (hc : s.sessState = .closed) (hh : s.remoteHost = none) :
    exec (.openSession p) s =
      .next (emitResult .badConfig .absent (emitStatus ⟨.badConfig, remoteHostNotConfigured⟩ s)) := by
  simp [exec, execOpenSession, hc, hh]

/-- R183. -/
theorem exec_openSession_of_opened (ho : s.sessState = .opened) :
    exec (.openSession p) s = .next (emitResult .alreadyOpen .absent s) := by
  simp [exec, execOpenSession, ho]

/-- R184. -/
theorem exec_closeSession_of_opened (ho : s.sessState = .opened) :
    exec .closeSession s = .next (emitResult .ok (.num (pendingCount s)) (emitCpl ((closeOrder s).map abortOf)
      (drawn { s with pt := [], sessState := .closed, localPort := 0x0000#16 }))) := by
  simp [exec, execCloseSession, ho, pendingCount]

/-- R185. -/
theorem exec_closeSession_of_closed (hc : s.sessState = .closed) :
    exec .closeSession s = .next (emitResult .ok (.num 0) s) := by
  simp [exec, execCloseSession, hc]

end

/-- Settles O16: OPEN looks at SESS_STATE, then at REMOTE_HOST. -/
theorem openInItsThreeCases : Obligations.OpenInItsThreeCases :=
  fun _ _ => ⟨fun _ => exec_openSession_of_remote, exec_openSession_of_no_remote, exec_openSession_of_opened⟩

/-- Settles O17: the open order is the model's `closeOrder`, a permutation of the valid entries. -/
theorem closeAbortsEveryPendingRequest : Obligations.CloseAbortsEveryPendingRequest :=
  fun s => ⟨fun ho => ⟨closeOrder s, s.freeCount + 1, closeOrder_perm s, exec_closeSession_of_opened ho⟩,
    exec_closeSession_of_closed⟩

/-! ### SEND and the cookie counter -/

section
variable {cmd : Byte} {p : Bytes} {n : Nat} {s : State}

/-- R187. -/
theorem sendRequest_of_closed (hc : s.sessState = .closed) :
    sendRequest cmd p n s = (⟨.notOpen, .absent⟩, emitResult .notOpen .absent s) :=
  if_pos hc

variable (ho : s.sessState = .opened)
include ho

/-- R188. -/
theorem sendRequest_of_tooLong (hp : 65535 < p.length) :
    sendRequest cmd p n s = (⟨.tooLong, .num p.length⟩, emitResult .tooLong (.num p.length) s) := by
  simp [sendRequest, ho, hp]

variable (hp : p.length ≤ 65535)
include hp

/-- R186, the capacity check. -/
theorem sendRequest_of_tableFull (hn : s.params.nPending ≤ pendingCount s) :
    sendRequest cmd p n s = (⟨.tableFull, .absent⟩, emitResult .tableFull .absent s) := by
  simp [sendRequest, ho, Nat.not_lt.2 hp, hn]

variable (hn : pendingCount s < s.params.nPending)
include hn

/-- R190. -/
theorem sendRequest_of_collision (hv : ptValid s.nextCookie s.pt = true) :
    sendRequest cmd p n s = (⟨.collision, .num s.nextCookie.toNat⟩, emitResult .collision (.num s.nextCookie.toNat)
      (setCollision { s with nextCookie := s.nextCookie + 1#16 })) := by
  simp [sendRequest, ho, Nat.not_lt.2 hp, Nat.not_le.2 hn, hv]

/-- R186, past every check. -/
theorem sendRequest_of_free (hv : ptValid s.nextCookie s.pt = false) :
    sendRequest cmd p n s = (⟨.ok, .num s.nextCookie.toNat⟩, emitResult .ok (.num s.nextCookie.toNat)
      (emitTx ⟨s.remoteHost, s.remotePort, encodeFrame cmd s.nextCookie s.localPort p⟩
        { s with nextCookie := s.nextCookie + 1#16, pt := ptSet s.nextCookie (s.now + n) s.pt })) := by
  simp [sendRequest, ho, Nat.not_lt.2 hp, Nat.not_le.2 hn, hv]

end

theorem exec_send (cmd : Byte) (p : Bytes) (n : Nat) (s : State) :
    exec (.send cmd p n) s = .next (sendRequest cmd p n s).2 := rfl

/-- R191: the word's own addition is the addition modulo 65536. -/
theorem cookie_succ (c : U16) : c + 1#16 = BitVec.ofNat 16 (c.toNat + 1) := by
  rw [BitVec.ofNat_add, BitVec.ofNat_toNat, BitVec.setWidth_eq]

/-- Settles O18: the five cases of `sendRequest`; `ptSet` is the table that the last one leaves. -/
theorem sendInItsFiveCases : Obligations.SendInItsFiveCases := by
  intro cmd p timeout s
  rw [exec_send, ← cookie_succ]
  refine ⟨fun hc => ?closed, fun ho hp => ?tooLong, fun ho hp hn => ?tableFull, fun ho hp hn hv => ?collision,
    fun ho hp hn hv => ⟨ptSet s.nextCookie (s.now + timeout) s.pt, fun c => ptLookup_ptSet _ c _ _, ?free⟩⟩
  case closed => rw [sendRequest_of_closed hc]; rfl
  case tooLong => rw [sendRequest_of_tooLong ho hp]; rfl
  case tableFull => rw [sendRequest_of_tableFull ho hp hn]; rfl
  case collision => rw [sendRequest_of_collision ho hp hn hv]; rfl
  case free => rw [sendRequest_of_free ho hp hn hv]; rfl

/-- R191: past the capacity check, and only there, the counter advances. -/
theorem sendRequest_nextCookie (cmd : Byte) (p : Bytes) (n : Nat) (s : State) :
    (sendRequest cmd p n s).2.nextCookie.toNat =
      if s.sessState = .opened ∧ p.length ≤ 65535 ∧ pendingCount s < s.params.nPending
        then (s.nextCookie.toNat + 1) % 65536 else s.nextCookie.toNat := by
  obtain ⟨code, v, -, -, hsend, hcheck⟩ | ⟨ho, hp, hn, -, hsend⟩ | ⟨ho, hp, hn, -, hsend⟩ :=
    sendRequest_cases cmd p n s
  · rw [hsend, if_neg hcheck, emitResult_nextCookie]
  · rw [hsend, if_pos ⟨ho, hp, hn⟩]
    exact BitVec.toNat_add _ _
  · rw [hsend, if_pos ⟨ho, hp, hn⟩]
    exact BitVec.toNat_add _ _

/-- R191: the cookie a SEND reports with OK is the counter's value before. -/
theorem sendRequest_cookie_of_ok {cmd : Byte} {p : Bytes} {timeout n : Nat} {s : State}
    (h : (sendRequest cmd p timeout s).2.result = s.result ++ [⟨.ok, .num n⟩]) : n = s.nextCookie.toNat := by
  obtain ⟨code, v, hok, -, hsend, -⟩ | ⟨-, -, -, -, hsend⟩ | ⟨-, -, -, -, hsend⟩ := sendRequest_cases cmd p timeout s
  · simp [hsend, hok] at h
  · simp [hsend] at h
  · simpa [hsend, eq_comm] using h

/-- R191, the other half: no effect but a SEND's and the reset's touches the counter. -/
theorem Effect.nextCookie_eq {i : Instr} {s t : State} (he : Effect i s t) (hsend : i.issuesSend = false)
    (hreset : i ≠ .reset) : t.nextCookie = s.nextCookie := by
  cases he with
  | sends _ _ _ _ _ _ hi => simp [hi] at hsend
  | resets hi => exact absurd hi hreset
  | _ => rfl

/-- Settles O19: the counter in a SEND by its cases, in the other instructions by their effects. -/
theorem cookieCounterAdvancesOnlyOnAllocation : Obligations.CookieCounterAdvancesOnlyOnAllocation := by
  refine ⟨fun cmd p timeout s t h => ?_, fun i s t hsend hreset h => (exec_effect h).nextCookie_eq hsend hreset, rfl⟩
  cases h
  exact ⟨sendRequest_nextCookie cmd p timeout s, fun n => sendRequest_cookie_of_ok⟩

/-! ### RECEIVE -/

section
variable {f : Bytes} {m : Message} {r : DecodeReason} {s : State}

/-- R193. -/
theorem exec_receive_of_closed (hc : s.sessState = .closed) :
    exec (.receive f) s = .next (emitLog ⟨.debug, .dropClosed, .length f.length⟩ s) := by
  simp [exec, execReceive, hc]

/-- R195. -/
theorem exec_receive_of_invalid (ho : s.sessState = .opened) (hd : decodeFrame f = .error r) :
    exec (.receive f) s = .next (emitLog ⟨.warn, .dropInvalid, .reason r⟩ s) := by
  simp [exec, execReceive, ho, hd]

/-- R194. -/
theorem exec_receive_of_unmatched (ho : s.sessState = .opened) (hd : decodeFrame f = .ok m)
    (hv : ptValid m.cookie s.pt = false) :
    exec (.receive f) s = .next (emitLog ⟨.debug, .dropUnmatched, .cookie m.cookie⟩ s) := by
  simp [exec, execReceive, ho, hd, hv]

/-- R192. -/
theorem exec_receive_of_pending (ho : s.sessState = .opened) (hd : decodeFrame f = .ok m)
    (hv : ptValid m.cookie s.pt = true) :
    exec (.receive f) s =
      .next (emitCpl [⟨m.cookie, .response, some m⟩] { s with pt := ptClear m.cookie s.pt }) := by
  simp [exec, execReceive, ho, hd, hv]

end

/-- Settles O21: `ptClear` is the table that the last case leaves. -/
theorem receiveInItsFourCases : Obligations.ReceiveInItsFourCases :=
  fun _ s => ⟨exec_receive_of_closed, fun _ => exec_receive_of_invalid, fun _ => exec_receive_of_unmatched,
    fun m ho hd hv => ⟨ptClear m.cookie s.pt, fun c => ptLookup_ptClear m.cookie c s.pt,
      exec_receive_of_pending ho hd hv⟩⟩

/-- What a valid frame with cookie `c` does to the table, and the cookies and kinds of the records it leaves on CPL:
R192 to R194 with nothing of the frame but its cookie, and nothing of the remote (R207). -/
theorem exec_receive_routing {f : Bytes} {m : Message} {s t : State} (hd : decodeFrame f = .ok m)
    (h : exec (.receive f) s = .next t) :
    if s.sessState = .opened ∧ ptValid m.cookie s.pt = true then
      t.pt = ptClear m.cookie s.pt ∧ t.cpl.map (·.cookie) = s.cpl.map (·.cookie) ++ [m.cookie] ∧
        t.cpl.map (·.kind) = s.cpl.map (·.kind) ++ [.response]
    else t.pt = s.pt ∧ t.cpl = s.cpl := by
  cases hs : s.sessState with
  | closed =>
    cases (exec_receive_of_closed hs).symm.trans h
    simp
  | opened =>
    cases hv : ptValid m.cookie s.pt with
    | false =>
      cases (exec_receive_of_unmatched hs hd hv).symm.trans h
      simp
    | true =>
      cases (exec_receive_of_pending hs hd hv).symm.trans h
      simp

/-- Settles O22: both frames follow `exec_receive_routing`, whose right sides are equal. -/
theorem demultiplexerRoutesByCookieAlone : Obligations.DemultiplexerRoutesByCookieAlone := by
  intro f g m k remote port s t u hf hg hmk ht hu
  have hft := exec_receive_routing hf ht
  have hgu := exec_receive_routing hg hu
  rw [← hmk] at hgu
  by_cases hc : s.sessState = .opened ∧ ptValid m.cookie s.pt = true
  · rw [if_pos hc] at hft hgu
    obtain ⟨hpt, hcookies, hkinds⟩ := hft
    obtain ⟨hpt', hcookies', hkinds'⟩ := hgu
    exact ⟨hpt.trans hpt'.symm, hcookies.trans hcookies'.symm, hkinds.trans hkinds'.symm⟩
  · rw [if_neg hc] at hft hgu
    obtain ⟨hpt, hcpl⟩ := hft
    obtain ⟨hpt', hcpl'⟩ := hgu
    exact ⟨hpt.trans hpt'.symm, by rw [hcpl, hcpl'], by rw [hcpl, hcpl']⟩

/-! ### EXPIRE -/

/-- R196, where it is enabled. -/
theorem exec_expire_of_expirable {c : U16} {s : State} (he : expirable c s = true) :
    exec (.expire c) s = .next (expireEntry c s) :=
  if_pos he

/-- R196, where it is not (log 8). -/
theorem exec_expire_of_not_expirable {c : U16} {s : State} (he : expirable c s = false) :
    exec (.expire c) s = .next s :=
  if_neg (by simp [he])

/-- Settles O25: EXPIRE acts where `expirable` holds, which is a due entry, and leaves the state where it does not. -/
theorem expireCompletesADueEntry : Obligations.ExpireCompletesADueEntry := by
  refine ⟨fun c d s hd hdue => ?due, fun c s t h hne => (expirable_iff c s).1 ?changed⟩
  case due =>
    exact ⟨ptClear c s.pt, fun c' => ptLookup_ptClear c c' s.pt,
      exec_expire_of_expirable ((expirable_iff c s).2 ⟨d, hd, hdue⟩)⟩
  case changed =>
    by_contra he
    cases (exec_expire_of_not_expirable (Bool.eq_false_iff.2 he)).symm.trans h
    simp at hne

/-! ### TICK, IO_ERROR, CFG_REMOTE -/

/-- R197. -/
theorem exec_tick (s : State) : exec .tick s = .next { s with now := s.now + 1 } := rfl

/-- R199. -/
theorem exec_ioError (detail : Text) (s : State) :
    exec (.ioError detail) s = .next (emitStatus ⟨.connectionFailure, detail⟩ s) := rfl

/-- R200. -/
theorem exec_cfgRemote (h : Addr) (p : U16) (s : State) : exec (.cfgRemote h p) s =
    .next (emitResult .ok (.num 0) { s with remoteHost := some h, remotePort := p }) := rfl

/-- Settles O24: the three rules look at no field but the one they add to. -/
theorem tickIoErrorAndCfgRemoteComplete : Obligations.TickIoErrorAndCfgRemoteComplete :=
  fun s => ⟨exec_tick s, fun detail => exec_ioError detail s, fun h p => exec_cfgRemote h p s⟩

/-! ### CSR_READ -/

theorem exec_csrRead_of_view {index : Byte} {s : State} {v : Nat} (h : csrView index s = some v) :
    exec (.csrRead index) s = .next (emitResult .ok (.num v) s) := by
  simp [exec, execCsrRead, h]

theorem exec_csrRead_of_no_view {index : Byte} {s : State} (h : csrView index s = none) :
    exec (.csrRead index) s = .next (emitResult .illegalCsr (.num index.toNat) s) := by
  simp [exec, execCsrRead, h]

/-- R34: the status word as the sum of its two flags' weights. -/
theorem toNat_statusWord (s : State) : (statusWord s).toNat =
    (if s.sessState = .opened then 1 else 0) + (if s.faultCollision = true then 2 else 0) := by
  unfold statusWord
  cases s.sessState <;> cases s.faultCollision <;> rfl

/-- R34: the reserved indices. -/
theorem csrView_eq_none {index : Byte} {s : State} (h : 6 < index.toNat) : csrView index s = none := by
  unfold csrView
  split
  case h_8 => rfl
  all_goals omega

/-- Settles O27: the view at each index, the status word by its bits. -/
theorem csrReadGivesTheView : Obligations.CsrReadGivesTheView := by
  intro index s answer
  have view {j : Byte} {v : Nat} (hv : csrView j s = some v) (hj : index = j) : answer ⟨.ok, .num v⟩ :=
    exec_csrRead_of_view (hj ▸ hv)
  exact ⟨view (congrArg some (toNat_statusWord s)), view rfl, view rfl, view rfl, view rfl, view rfl, view rfl,
    fun h => exec_csrRead_of_no_view (csrView_eq_none h)⟩

end Sys2Proof.Machine

/-! PROOFS. The host operations family: the slots of a getInfo reply (R244), and toggleMute (R250). -/

namespace Sys2Proof.Machine

/-! ### The slots of a getInfo reply -/

@[simp] theorem untilNul_nil : untilNul [] = [] := rfl

@[simp] theorem untilNul_nul_cons (s : Bytes) : untilNul (0#8 :: s) = [] := rfl

theorem untilNul_cons_of_ne {b : Byte} (hb : b ≠ 0#8) (s : Bytes) : untilNul (b :: s) = b :: untilNul s :=
  if_neg hb

/-- R244: cutting at the first NUL keeps exactly the bytes before it, or all of them when there is none. -/
theorem untilNul_eq_take (s : Bytes) (j : Nat) (hbefore : ∀ n < j, s[n]? ≠ some 0#8)
    (hend : s.length ≤ j ∨ s[j]? = some 0#8) : untilNul s = s.take j := by
  induction s generalizing j with
  | nil => simp
  | cons b s ih =>
    cases j with
    | zero =>
      have hb : b = 0#8 := by simpa using hend
      simp [hb]
    | succ j =>
      have hb : b ≠ 0#8 := by simpa using hbefore 0 (by omega)
      have hrest : untilNul s = s.take j :=
        ih j (fun n hn => by simpa using hbefore (n + 1) (by omega)) (by simpa using hend)
      rw [untilNul_cons_of_ne hb, hrest, List.take_succ_cons]

/-- R244: the slot that `infoField` cuts is 31 bytes at most. -/
theorem infoField_eq_untilNul_take (p : Bytes) (k : Nat) :
    infoField p k = untilNul ((p.drop (32 * k)).take 31) := by
  simp [infoField, slice]

/-- Settles O53: a NUL of the payload at an offset below 31 of slot k is the NUL that `untilNul` cuts the slot at, and
with none there the slot's 31 bytes are all kept. -/
theorem infoFieldIsTheSlotUpToItsNul : Obligations.InfoFieldIsTheSlotUpToItsNul := by
  intro p k j _ _ hj hbefore hend
  have hslot : ∀ n < 31, ((p.drop (32 * k)).take 31)[n]? = p[32 * k + n]? := fun n hn => by
    rw [List.getElem?_take_of_lt hn, List.getElem?_drop]
  have hnone : ∀ n < j, ((p.drop (32 * k)).take 31)[n]? ≠ some 0#8 := fun n hn => by
    rw [hslot n (by omega)]
    exact hbefore n hn
  have hstop : ((p.drop (32 * k)).take 31).length ≤ j ∨ ((p.drop (32 * k)).take 31)[j]? = some 0#8 := by
    by_cases hj31 : j = 31
    · exact .inl (hj31 ▸ List.length_take_le 31 _)
    · exact .inr ((hslot j (by omega)).trans (hend.resolve_left hj31))
  calc infoField p k
      _ = untilNul ((p.drop (32 * k)).take 31) := infoField_eq_untilNul_take p k
      _ = ((p.drop (32 * k)).take 31).take j := untilNul_eq_take _ j hnone hstop
      _ = (p.drop (32 * k)).take j := by rw [List.take_take, Nat.min_eq_left hj]

/-! ### toggleMute -/

/-- R250, log 21: the refusal looks at the next input alone. -/
theorem step_of_toggleMute {s : State} {channel : Byte} {rest : List Event}
    (h : s.inputs = .toggleMute channel :: rest) : step s = .refused .toggleMute := by
  simp [step, h]

/-- Settles O44: the step's arm for toggleMute refuses whatever the rest of the state. -/
theorem toggleMuteIsRefused : Obligations.ToggleMuteIsRefused :=
  fun _ _ _ => step_of_toggleMute

end Sys2Proof.Machine

/-! PROOFS. The reset family: the RESET step and the power-on state (R320, R321). -/

namespace Sys2Proof.Machine

/-- R320: the step first resolves the host's lost waits, which reads the table, and then resets the registers. -/
theorem exec_reset (s : State) : exec .reset s = .next (resetRegisters (resolveLost s)) := rfl

/-- R321's table of reset values, with the counter at the state's own COOKIE_RESET. -/
theorem resetRegisters_values (s : State) :
    (resetRegisters s).crcAcc = 0x0000#16 ∧ (resetRegisters s).sessState = .closed ∧
    (resetRegisters s).localPort = 0x0000#16 ∧ (resetRegisters s).remoteHost = none ∧
    (resetRegisters s).remotePort = 1234#16 ∧ (resetRegisters s).nextCookie = s.params.cookieReset ∧
    (resetRegisters s).now = 0 ∧ (resetRegisters s).faultCollision = false ∧
    (∀ c, ptValid c (resetRegisters s).pt = false) :=
  ⟨rfl, rfl, rfl, rfl, rfl, rfl, rfl, rfl, ptValid_nil⟩

/-- R321: resetting the registers retracts no record and emits none. -/
theorem resetRegisters_frame (s : State) :
    (resetRegisters s).result = s.result ∧ (resetRegisters s).tx = s.tx ∧ (resetRegisters s).cpl = s.cpl ∧
    (resetRegisters s).log = s.log ∧ (resetRegisters s).status = s.status ∧
    (resetRegisters s).params = s.params ∧ (resetRegisters s).inputs = s.inputs :=
  ⟨rfl, rfl, rfl, rfl, rfl, rfl, rfl⟩

/-- R322: the host's lost waits end in the host alone, without a record on a port of the block. -/
theorem resolveLost_frame (s : State) :
    (resolveLost s).result = s.result ∧ (resolveLost s).tx = s.tx ∧ (resolveLost s).cpl = s.cpl ∧
    (resolveLost s).log = s.log ∧ (resolveLost s).status = s.status ∧
    (resolveLost s).params = s.params ∧ (resolveLost s).inputs = s.inputs :=
  ⟨rfl, rfl, rfl, rfl, rfl, rfl, rfl⟩

/-- At power-on every register already holds its reset value. -/
theorem resetRegisters_reset : resetRegisters State.reset = State.reset := rfl

/-- Settles O1: the values are those of `resetRegisters`, which the power-on state is a fixed point of; neither part of
the step touches a port. -/
theorem resetSetsEveryPieceOfState : Obligations.ResetSetsEveryPieceOfState := by
  refine ⟨fun s => ⟨_, exec_reset s, ?step⟩, ?powerOn⟩
  case step =>
    simp only [resetRegisters_values, resetRegisters_frame, resolveLost_frame, implies_true, and_self]
  case powerOn =>
    have values := resetRegisters_values State.reset
    rw [resetRegisters_reset] at values
    exact values

end Sys2Proof.Machine

/-! PROOFS. The codec's second direction: a buffer that decodes is the encoding of its message (R90, R152), and buffers
too long for a frame (R158). -/

namespace Sys2Proof.Machine

/-! ### Buffers that decode -/

/-- R90, R91: a buffer whose length field is exact is eight bytes, a payload of the declared length and four bytes. -/
theorem exists_frame_parts {f : Bytes} (hlen : f.length = 12 + frameLength f) :
    ∃ (start cmd c0 c1 l0 l1 p0 p1 : Byte) (p : Bytes) (crc0 crc1 compl stop : Byte),
      f = start :: cmd :: c0 :: c1 :: l0 :: l1 :: p0 :: p1 :: (p ++ [crc0, crc1, compl, stop]) ∧
      (pair16 l0 l1).toNat = p.length := by
  obtain ⟨start, cmd, c0, c1, l0, l1, p0, p1, rest, rfl⟩ := cons8_of_length (f := f) (by omega)
  have hrest : rest.length = (pair16 l0 l1).toNat + 4 := by
    change rest.length + 8 = 12 + (pair16 l0 l1).toNat at hlen
    omega
  have htail : (rest.drop (pair16 l0 l1).toNat).length = 4 := by simp [hrest]
  obtain ⟨crc0, crc1, compl, stop, hdrop⟩ := List.length_eq_four.1 htail
  refine ⟨start, cmd, c0, c1, l0, l1, p0, p1, rest.take (pair16 l0 l1).toNat, crc0, crc1, compl, stop, ?_, ?_⟩
  · rw [← hdrop, List.take_append_drop]
  · simp [hrest]

/-- Settles O13: the bytes around the payload are those R90 has there, by the decoder's checks. -/
theorem validFramesAreExactlyTheEncodings : Obligations.ValidFramesAreExactlyTheEncodings := by
  intro f m hm
  obtain ⟨-, hstart, hstop, hlen, hcompl, hcrc, rfl⟩ := decodeFrame_ok hm
  obtain ⟨start, cmd, c0, c1, l0, l1, p0, p1, p, crc0, crc1, compl, stop, rfl, hl⟩ := exists_frame_parts hlen
  have tail {i : Nat} (k : Nat) (hi : i = 8 + p.length + k) := hi ▸
    byteAt_tail start cmd c0 c1 l0 l1 p0 p1 p [crc0, crc1, compl, stop] k
  have hpayload := framePayload_cons start cmd c0 c1 l0 l1 p0 p1 p [crc0, crc1, compl, stop] hl
  generalize hf : start :: cmd :: c0 :: c1 :: l0 :: l1 :: p0 :: p1 :: (p ++ [crc0, crc1, compl, stop]) = f at *
  have hL : frameLength f = p.length := by rw [← hf]; exact hl
  have hmessage : frameMessage f = ⟨cmd, pair16 c0 c1, pair16 p0 p1, p⟩ := by
    rw [frameMessage, hpayload, ← hf]
    rfl
  have hstart' : start = Config.startMarker := by rw [← hstart, ← hf]; rfl
  have hlength : BitVec.ofNat 16 p.length = pair16 l0 l1 := by rw [← hl, BitVec.ofNat_toNat, BitVec.setWidth_eq]
  have hcrc' : crc16 p = pair16 crc0 crc1 := by
    rw [← hpayload, ← hcrc, hL, le16, tail (i := 8 + p.length) 0 rfl, tail 1 rfl]
    rfl
  have hcompl' : compl = complementOf cmd := by
    have hcmd : byteAt f 1 = cmd := by rw [← hf]; rfl
    rw [← hcmd, ← hcompl, hL, tail 2 (by omega)]
    rfl
  have hstop' : stop = Config.endMarker := by
    rw [← hstop, tail 3 (by omega)]
    rfl
  rw [hmessage]
  refine ⟨by have := (pair16 l0 l1).isLt; simp only; omega, ?_⟩
  rw [encodeFrame_eq, hlength, hcrc', ← hstart', ← hcompl', ← hstop', ← hf]
  simp

/-- Settles O14: a 16-bit length field declares at most 65535 bytes, so the length check is out of reach. -/
theorem overlongBuffersAreInvalid : Obligations.OverlongBuffersAreInvalid := by
  intro f hf
  have hL : f.length ≠ 12 + frameLength f := by
    have := (le16 f 4).isLt
    rw [frameLength]
    omega
  refine ⟨fun m hm => ?never, fun hstart hstop => ?reason⟩
  case never =>
    obtain ⟨-, -, -, hlen, -⟩ := decodeFrame_ok hm
    exact hL hlen
  case reason =>
    exact decodeFrame_badLength (by omega) ((byteAt_eq_iff (by omega)).2 hstart) ((byteAt_eq_iff (by omega)).2 hstop) hL

end Sys2Proof.Machine

/-! PROOFS. The record encoding (log 9): decoding an instruction's record, and the record of what decodes. -/

namespace Sys2Proof

/-! ### From an instruction to its record and back -/

/-- Row by row: parsing the record of a well-formed instruction gives it, whatever follows. -/
theorem parse_encode (i : Instr) : Laws.ParseEncoded.Statement i := by
  cases i with
  | crcClear => exact Laws.ParseEncoded.crcClear
  | crcUpdate d => exact Laws.ParseEncoded.crcUpdate d
  | crcRead => exact Laws.ParseEncoded.crcRead
  | encode cmd cookie port payload => exact Laws.ParseEncoded.encode cmd cookie port payload
  | decode frame => exact Laws.ParseEncoded.decode frame
  | openSession p => exact Laws.ParseEncoded.openSession p
  | closeSession => exact Laws.ParseEncoded.closeSession
  | send cmd payload timeout => exact Laws.ParseEncoded.send cmd payload timeout
  | receive frame => exact Laws.ParseEncoded.receive frame
  | tick => exact Laws.ParseEncoded.tick
  | ioError detail => exact Laws.ParseEncoded.ioError detail
  | cfgRemote host port => exact Laws.ParseEncoded.cfgRemote host port
  | csrRead index => exact Laws.ParseEncoded.csrRead index
  | reserved0 => exact Laws.ParseEncoded.reserved0
  | reservedE => exact Laws.ParseEncoded.reservedE
  | reservedF => exact Laws.ParseEncoded.reservedF
  | expire c => exact Laws.ParseEncoded.expire c
  | reset => exact Laws.ParseEncoded.reset
  | ping timeout => exact Laws.ParseEncoded.ping timeout
  | readgm timeout => exact Laws.ParseEncoded.readgm timeout
  | writeoutmute channel mute timeout => exact Laws.ParseEncoded.writeoutmute channel mute timeout
  | info timeout => exact Laws.ParseEncoded.info timeout
  | standby action timeout => exact Laws.ParseEncoded.standby action timeout
  | pingResponse c => exact Laws.ParseEncoded.pingResponse c
  | readgmResponse c => exact Laws.ParseEncoded.readgmResponse c
  | writeoutmuteResponse c => exact Laws.ParseEncoded.writeoutmuteResponse c
  | infoResponse c => exact Laws.ParseEncoded.infoResponse c
  | standbyResponse c => exact Laws.ParseEncoded.standbyResponse c

theorem decode_eq_ok {line : Line} {s : Bytes} {i : Instr} : decode line s = .ok i ↔ parse line s = .ok (i, []) := by
  unfold decode
  split <;> simp_all

/-- Settles O47: the record is parsed whole, so nothing is left over. -/
theorem decodeOfEncode : Obligations.DecodeOfEncode := by
  intro i hi
  have h := parse_encode i hi []
  rw [List.append_nil] at h
  exact decode_eq_ok.2 h

/-! ### From a record to its instruction and back -/

/-- What a sequence of operand readers that succeeds has read. -/
theorem bind_eq_ok {ε α β : Type} {x : Except ε α} {f : α → Except ε β} {b : β} :
    (x >>= f) = .ok b ↔ ∃ a, x = .ok a ∧ f a = .ok b := by
  cases x <;> simp [Bind.bind, Except.bind]

/-- What a parser that read `s` and left `rest` says of its instruction: the line and the bytes read are the
instruction's own. -/
structure Reads (line : Line) (s : Bytes) (i : Instr) (rest : Bytes) : Prop where
  line_eq : i.line = line
  bytes_eq : s = encode i ++ rest
  wellFormed : i.wellFormed = true

/-- R100: the operands of each op code, read in the order its record has them. -/
theorem parseRequest_reads {op : Nat} {r rest : Bytes} {i : Instr} (h : parseRequest op r = .ok (i, rest)) :
    Reads .request (BitVec.ofNat 8 op :: r) i rest := by
  unfold parseRequest at h
  split at h <;> simp only [bind_eq_ok, Prod.exists, Except.ok.injEq, Prod.mk.injEq, reduceCtorEq] at h
  case h_1 | h_2 | h_4 | h_8 | h_11 | h_15 | h_16 =>
    obtain ⟨rfl, rfl⟩ := h
    exact ⟨rfl, rfl, rfl⟩
  case h_3 =>
    obtain ⟨d, r1, hd, rfl, rfl⟩ := h
    exact ⟨rfl, by simp [encode, readU8_ok hd], rfl⟩
  case h_5 =>
    obtain ⟨cmd, r1, hcmd, cookie, r2, hcookie, port, r3, hport, payload, r4, hpayload, rfl, rfl⟩ := h
    exact ⟨rfl, by simp [encode, readU8_ok hcmd, readU16_ok hcookie, readU16_ok hport, readBytes_ok hpayload], rfl⟩
  case h_6 | h_10 | h_12 =>
    obtain ⟨f, r1, hf, rfl, rfl⟩ := h
    exact ⟨rfl, by simp [encode, readBytes_ok hf], rfl⟩
  case h_7 =>
    obtain ⟨p, r1, hp, rfl, rfl⟩ := h
    exact ⟨rfl, by simp [encode, readU16_ok hp], rfl⟩
  case h_9 =>
    obtain ⟨cmd, r1, hcmd, payload, r2, hpayload, t, r3, ht, rfl, rfl⟩ := h
    exact ⟨rfl, by simp [encode, readU8_ok hcmd, readBytes_ok hpayload, readNat_ok ht], rfl⟩
  case h_13 =>
    obtain ⟨host, r1, hhost, port, r2, hport, rfl, rfl⟩ := h
    exact ⟨rfl, by simp [encode, readAddr_ok hhost, readU16_ok hport], rfl⟩
  case h_14 =>
    obtain ⟨index, r1, hindex, rfl, rfl⟩ := h
    obtain ⟨rfl, hlt⟩ := readU4_ok hindex
    exact ⟨rfl, rfl, decide_eq_true hlt⟩

/-- R98: the operands of each command or response code, read in the order its record has them. -/
theorem parseCommand_reads {code : Nat} {r rest : Bytes} {i : Instr} (h : parseCommand code r = .ok (i, rest)) :
    Reads .command (BitVec.ofNat 8 code :: r) i rest := by
  unfold parseCommand at h
  split at h <;> simp only [bind_eq_ok, Prod.exists, Except.ok.injEq, Prod.mk.injEq, reduceCtorEq] at h
  case h_1 | h_2 | h_4 =>
    obtain ⟨t, r1, ht, rfl, rfl⟩ := h
    exact ⟨rfl, by simp [encode, readTimeout_ok ht], rfl⟩
  case h_3 =>
    obtain ⟨channel, r1, hchannel, mute, r2, hmute, t, r3, ht, rfl, rfl⟩ := h
    exact ⟨rfl, by simp [encode, readU8_ok hchannel, readBool_ok hmute, readTimeout_ok ht], rfl⟩
  case h_5 =>
    obtain ⟨action, r1, haction, t, r2, ht, rfl, rfl⟩ := h
    exact ⟨rfl, by simp [encode, readAction_ok haction, readTimeout_ok ht], rfl⟩
  case h_6 | h_7 | h_8 | h_9 | h_10 =>
    obtain ⟨c, r1, hc, rfl, rfl⟩ := h
    exact ⟨rfl, by simp [encode, readU16_ok hc], rfl⟩

theorem parse_reads {line : Line} {s rest : Bytes} {i : Instr} (h : parse line s = .ok (i, rest)) :
    Reads line s i rest := by
  cases line with
  | request =>
    cases s with
    | nil => simp [parse] at h
    | cons b r => simpa using parseRequest_reads (op := b.toNat) h
  | command =>
    cases s with
    | nil => simp [parse] at h
    | cons b r => simpa using parseCommand_reads (code := b.toNat) h
  | timer =>
    obtain ⟨⟨c, r1⟩, hc, hexpire⟩ := bind_eq_ok.1 h
    cases hexpire
    exact ⟨rfl, readU16_ok hc, rfl⟩
  | reset =>
    cases h
    exact ⟨rfl, rfl, rfl⟩

/-- Settles O48: `parse_reads`, with no byte left over. -/
theorem encodeOfDecode : Obligations.EncodeOfDecode := by
  intro line s i h
  have hreads := parse_reads (decode_eq_ok.1 h)
  exact ⟨hreads.line_eq, by simpa using hreads.bytes_eq.symm, hreads.wellFormed⟩

end Sys2Proof

/-! PROOFS. Rules shared by the statements that follow: runs of instructions, what a SEND does to each field, EXPIRE, and
the two ends of a host program's request. -/

namespace Sys2Proof.Machine

/-! ### Runs -/

theorem execAll_nil (s : State) : execAll [] s = .next s := rfl

theorem execAll_cons_of_next {i : Instr} {p : List Instr} {s t : State} (h : exec i s = .next t) :
    execAll (i :: p) s = execAll p t := by
  rw [execAll, h]

/-! ### SEND and the pending table -/

/-- The fields a SEND can change; RESULT it only adds to. -/
theorem sendRequest_eq (cmd : Byte) (p : Bytes) (n : Nat) (s : State) :
    ∃ (c : U16) (fault : Bool) (pt : List PtEntry) (tx : List Datagram) (rs : List ResultRecord),
      (sendRequest cmd p n s).2 = { s with
        nextCookie := c, faultCollision := fault, pt := pt, tx := tx, result := s.result ++ rs } := by
  obtain ⟨code, v, -, -, h, -⟩ | ⟨-, -, -, -, h⟩ | ⟨-, -, -, -, h⟩ := sendRequest_cases cmd p n s <;>
    exact ⟨_, _, _, _, _, congrArg Prod.snd h⟩

/-- What a SEND does with the table and the TX port: nothing, or it registers the next cookie, which was free, and
transmits its frame. -/
theorem sendRequest_pt_tx (cmd : Byte) (p : Bytes) (n : Nat) (s : State) :
    ((sendRequest cmd p n s).2.pt = s.pt ∧ (sendRequest cmd p n s).2.tx = s.tx ∧
      (sendRequest cmd p n s).1.code ≠ .ok) ∨
    (s.sessState = .opened ∧ p.length ≤ 65535 ∧ pendingCount s < s.params.nPending ∧
      ptValid s.nextCookie s.pt = false ∧
      (sendRequest cmd p n s).1 = ⟨.ok, .num s.nextCookie.toNat⟩ ∧
      (sendRequest cmd p n s).2.nextCookie = s.nextCookie + 1#16 ∧
      (sendRequest cmd p n s).2.pt = ptSet s.nextCookie (s.now + n) s.pt ∧
      (sendRequest cmd p n s).2.tx =
        s.tx ++ [⟨s.remoteHost, s.remotePort, encodeFrame cmd s.nextCookie s.localPort p⟩]) := by
  obtain ⟨code, v, hok, -, h, -⟩ | ⟨-, -, -, -, h⟩ | ⟨ho, hp, hn, hv, h⟩ := sendRequest_cases cmd p n s <;> rw [h]
  · exact .inl ⟨rfl, rfl, hok⟩
  · exact .inl ⟨rfl, rfl, by simp⟩
  · exact .inr ⟨ho, hp, hn, hv, rfl, rfl, rfl, rfl⟩

/-- The record a SEND answers with is the one it adds to RESULT. -/
theorem sendRequest_result (cmd : Byte) (p : Bytes) (n : Nat) (s : State) :
    (sendRequest cmd p n s).2.result = s.result ++ [(sendRequest cmd p n s).1] := by
  obtain ⟨code, v, -, -, h, -⟩ | ⟨-, -, -, -, h⟩ | ⟨-, -, -, -, h⟩ := sendRequest_cases cmd p n s <;> rw [h] <;> rfl

section
variable (cmd : Byte) (p : Bytes) (n : Nat) (s : State)

@[simp] theorem sendRequest_hostCalls : (sendRequest cmd p n s).2.hostCalls = s.hostCalls := by
  obtain ⟨_, _, _, _, _, h⟩ := sendRequest_eq cmd p n s
  rw [h]

@[simp] theorem sendRequest_hostReturns : (sendRequest cmd p n s).2.hostReturns = s.hostReturns := by
  obtain ⟨_, _, _, _, _, h⟩ := sendRequest_eq cmd p n s
  rw [h]

@[simp] theorem sendRequest_logSink : (sendRequest cmd p n s).2.logSink = s.logSink := by
  obtain ⟨_, _, _, _, _, h⟩ := sendRequest_eq cmd p n s
  rw [h]

end

/-! ### EXPIRE and the fields it writes -/

@[simp] theorem expireEntry_pt (c : U16) (s : State) : (expireEntry c s).pt = ptClear c s.pt := rfl

@[simp] theorem expireEntry_cpl (c : U16) (s : State) :
    (expireEntry c s).cpl = s.cpl ++ [⟨c, .timeout, none⟩] := rfl

@[simp] theorem expireEntry_now (c : U16) (s : State) : (expireEntry c s).now = s.now := rfl

/-! ### The request half of a host program -/

section
variable {kind : HostCallKind} {p : Bytes} {n : Option Nat} {s : State}

/-- R240: past an OK, the call waits for the cookie its SEND was given. -/
theorem startCall_of_ok (hok : (sendRequest kind.command p (n.getD Config.timeoutDefault) s).1.code = .ok) :
    startCall kind p n s =
      { (sendRequest kind.command p (n.getD Config.timeoutDefault) s).2 with
        hostCalls := s.hostCalls ++ [⟨s.nextCookie, kind⟩] } := by
  simp only [startCall, hok, sendRequest_hostCalls]

/-- R241: any other code is the end of the call. -/
theorem startCall_of_not_ok (hfail : (sendRequest kind.command p (n.getD Config.timeoutDefault) s).1.code ≠ .ok) :
    startCall kind p n s =
      { (sendRequest kind.command p (n.getD Config.timeoutDefault) s).2 with
        hostReturns := s.hostReturns ++ [⟨kind, kind.failure⟩]
        logSink := s.logSink ++
          [.host ⟨kind, .sendFailed (sendRequest kind.command p (n.getD Config.timeoutDefault) s).1.code⟩] } := by
  simp only [startCall, sendRequest_hostReturns, sendRequest_logSink]

end

end Sys2Proof.Machine

/-! PROOFS. The CRC unit: linearity, leading zeros and residue (R137), accumulation (R134), and its independence of the
codec and the session (R139). -/

namespace Sys2Proof.Machine

/-! ### The sequence function -/

theorem crcFrom_zipWith_xor {a b : Bytes} (h : a.length = b.length) (c d : U16) :
    crcFrom (c ^^^ d) (List.zipWith (· ^^^ ·) a b) = crcFrom c a ^^^ crcFrom d b := by
  induction a generalizing b c d with
  | nil =>
    obtain rfl := List.length_eq_zero_iff.1 h.symm
    rfl
  | cons x a ih =>
    cases b with
    | nil => cases h
    | cons y b => rw [List.zipWith_cons_cons, crcFrom_cons, crcFrom_cons, crcFrom_cons, crcByte_xor, ih (Nat.succ.inj h)]

theorem crcByte_zero : crcByte 0x0000#16 0x00#8 = 0x0000#16 := by decide

/-- R137 c: the two bytes of a running value, low byte first, shift the whole of it out. -/
theorem crcFrom_own_bytes (c : U16) : crcFrom c (lebytes16 c) = 0x0000#16 := by
  rw [lebytes16, crcFrom_cons, crcFrom_cons, crcFrom_nil, crcByte_own_low, crcByte_of_high_zero]

/-- Settles O5: from CRC_INIT = 0x0000 the running value of a XOR is the XOR of the running values, and a zero byte
keeps it. -/
theorem crcLinearityLeadingZeroAndResidue : Obligations.CrcLinearityLeadingZeroAndResidue := by
  refine ⟨fun a b h => crcFrom_zipWith_xor h 0x0000#16 0x0000#16, fun s => ?leadingZero, fun s => ?residue⟩
  case leadingZero => rw [crc16, crcFrom_cons, crcByte_zero, crc16]
  case residue => exact (crcFrom_append 0x0000#16 s _).trans (crcFrom_own_bytes (crc16 s))

/-! ### The unit -/

/-- R134. -/
theorem exec_crcUpdate (d : Byte) (s : State) : exec (.crcUpdate d) s =
    .next (emitResult .ok (.num (crcByte s.crcAcc d).toNat) { s with crcAcc := crcByte s.crcAcc d }) := rfl

/-- R134: updates accumulate from whatever CRC_ACC holds. -/
theorem execAll_crcUpdates (b : Bytes) (s : State) : ∃ rs, execAll (b.map .crcUpdate) s =
    .next { s with crcAcc := crcFrom s.crcAcc b, result := s.result ++ rs } := by
  induction b generalizing s with
  | nil => exact ⟨[], by simp [execAll_nil]⟩
  | cons d b ih =>
    obtain ⟨rs, h⟩ := ih (emitResult .ok (.num (crcByte s.crcAcc d).toNat) { s with crcAcc := crcByte s.crcAcc d })
    refine ⟨⟨.ok, .num (crcByte s.crcAcc d).toNat⟩ :: rs, ?_⟩
    rw [List.map_cons, execAll_cons_of_next (exec_crcUpdate d s), h]
    simp [emitResult]

/-- Settles O7: CRC_CLEAR sets the running value to CRC_INIT, and the updates accumulate from there. -/
theorem crcUpdatesAccumulateTheSequence : Obligations.CrcUpdatesAccumulateTheSequence := by
  refine ⟨exec_crcUpdate, fun b s => ?_⟩
  obtain ⟨rs, h⟩ := execAll_crcUpdates b (emitResult .ok (.num 0) { s with crcAcc := 0x0000#16 })
  refine ⟨⟨.ok, .num 0⟩ :: rs, ?_⟩
  rw [execAll_cons_of_next (exec_crcClear s), h]
  simp [emitResult, crc16]

/-! ### Independence of the codec and the session -/

/-- CRC_ACC is written by the unit and the reset alone. -/
theorem Effect.crcAcc_eq {i : Instr} {s t : State} (he : Effect i s t) (hclear : i ≠ .crcClear)
    (hupdate : ∀ d, i ≠ .crcUpdate d) (hreset : i ≠ .reset) : t.crcAcc = s.crcAcc := by
  cases he with
  | crc _ _ hi => exact (hi.elim hclear fun ⟨d, hd⟩ => hupdate d hd).elim
  | resets hi => exact absurd hi hreset
  | sends cmd p n =>
    obtain ⟨code, v, -, -, hsend, -⟩ | ⟨-, -, -, -, hsend⟩ | ⟨-, -, -, -, hsend⟩ := sendRequest_cases cmd p n s <;>
      rw [hsend] <;> rfl
  | _ => rfl

/-- The same state with another value in CRC_ACC. -/
def State.withCrcAcc (v : U16) (s : State) : State := { s with crcAcc := v }

section
variable (v : U16) (s : State)

theorem sendRequest_withCrcAcc (cmd : Byte) (p : Bytes) (n : Nat) : sendRequest cmd p n (s.withCrcAcc v) =
    ((sendRequest cmd p n s).1, (sendRequest cmd p n s).2.withCrcAcc v) := by
  cases ho : s.sessState with
  | closed =>
    rw [sendRequest_of_closed ho, sendRequest_of_closed (s := s.withCrcAcc v) ho]
    rfl
  | opened =>
    obtain hp | hp := Nat.lt_or_ge 65535 p.length
    · rw [sendRequest_of_tooLong ho hp, sendRequest_of_tooLong (s := s.withCrcAcc v) ho hp]
      rfl
    · obtain hn | hn := Nat.lt_or_ge (pendingCount s) s.params.nPending
      · cases hv : ptValid s.nextCookie s.pt with
        | false =>
          rw [sendRequest_of_free ho hp hn hv, sendRequest_of_free (s := s.withCrcAcc v) ho hp hn hv]
          rfl
        | true =>
          rw [sendRequest_of_collision ho hp hn hv, sendRequest_of_collision (s := s.withCrcAcc v) ho hp hn hv]
          rfl
      · rw [sendRequest_of_tableFull ho hp hn, sendRequest_of_tableFull (s := s.withCrcAcc v) ho hp hn]
        rfl

theorem startCall_withCrcAcc (kind : HostCallKind) (p : Bytes) (n : Option Nat) :
    startCall kind p n (s.withCrcAcc v) = (startCall kind p n s).withCrcAcc v := by
  have hv := sendRequest_withCrcAcc v s kind.command p (n.getD Config.timeoutDefault)
  by_cases hok : (sendRequest kind.command p (n.getD Config.timeoutDefault) s).1.code = .ok
  · rw [startCall_of_ok (s := s.withCrcAcc v) (by rw [hv]; exact hok), startCall_of_ok hok, hv]
    rfl
  · rw [startCall_of_not_ok (s := s.withCrcAcc v) (by rw [hv]; exact hok), startCall_of_not_ok hok, hv]
    rfl

theorem nextCompletion_withCrcAcc (c : U16) : nextCompletion c (s.withCrcAcc v) =
    (nextCompletion c s).map fun kt => (kt.1, kt.2.withCrcAcc v) := by
  unfold nextCompletion State.withCrcAcc
  cases findCompletion c s.hostKept with
  | some _ => rfl
  | none => cases findCompletion c s.cpl <;> rfl

theorem finishCall_withCrcAcc (reader : HostCallKind → Option (Bytes → Option HostValue)) (c : U16) :
    finishCall reader c (s.withCrcAcc v) = (finishCall reader c s).withCrcAcc v := by
  unfold finishCall
  rw [nextCompletion_withCrcAcc, show (s.withCrcAcc v).hostCalls = s.hostCalls from rfl]
  cases callOf c s.hostCalls with
  | none => rfl
  | some h =>
    cases hr : reader h.kind with
    | none => simp only [hr]
    | some read =>
      cases nextCompletion c s with
      | none => simp only [hr, Option.map_none]
      | some kt =>
        simp only [hr, Option.map_some]
        unfold returnFrom
        cases judge h.kind read kt.1 <;> rfl

/-- R34: CRC_ACC is seen at index 5 alone. -/
theorem csrView_withCrcAcc {index : Byte} (h5 : index ≠ 5#8) : csrView index (s.withCrcAcc v) = csrView index s := by
  unfold csrView
  split
  case h_6 h => exact absurd (BitVec.eq_of_toNat_eq h) h5
  all_goals rfl

end

/-- R139: an instruction outside the unit does the same whatever CRC_ACC holds, and leaves it there. -/
theorem exec_withCrcAcc {i : Instr} {s t : State} (v : U16) (hclear : i ≠ .crcClear) (hupdate : ∀ d, i ≠ .crcUpdate d)
    (hread : i ≠ .crcRead) (hreset : i ≠ .reset) (hcsr : i ≠ .csrRead 5#8) (h : exec i s = .next t) :
    exec i (s.withCrcAcc v) = .next (t.withCrcAcc v) := by
  cases i with
  | crcClear => exact absurd rfl hclear
  | crcUpdate d => exact absurd rfl (hupdate d)
  | crcRead => exact absurd rfl hread
  | reset => exact absurd rfl hreset
  | encode cmd cookie port p =>
    obtain hp | hp := Nat.lt_or_ge 65535 p.length
    · cases (exec_encode_of_gt s hp).symm.trans h
      exact exec_encode_of_gt _ hp
    · cases (exec_encode_of_le s hp).symm.trans h
      exact exec_encode_of_le _ hp
  | decode f =>
    cases hf : decodeFrame f with
    | ok m =>
      cases (exec_decode_of_ok s hf).symm.trans h
      exact exec_decode_of_ok _ hf
    | error r =>
      cases (exec_decode_of_error s hf).symm.trans h
      exact exec_decode_of_error _ hf
  | openSession p =>
    cases ho : s.sessState with
    | opened =>
      cases (exec_openSession_of_opened ho).symm.trans h
      exact exec_openSession_of_opened (s := s.withCrcAcc v) ho
    | closed =>
      cases hh : s.remoteHost with
      | none =>
        cases (exec_openSession_of_no_remote ho hh).symm.trans h
        exact exec_openSession_of_no_remote (s := s.withCrcAcc v) ho hh
      | some a =>
        cases (exec_openSession_of_remote ho hh).symm.trans h
        exact exec_openSession_of_remote (s := s.withCrcAcc v) ho hh
  | closeSession =>
    cases ho : s.sessState with
    | closed =>
      cases (exec_closeSession_of_closed ho).symm.trans h
      exact exec_closeSession_of_closed (s := s.withCrcAcc v) ho
    | opened =>
      cases (exec_closeSession_of_opened ho).symm.trans h
      exact exec_closeSession_of_opened (s := s.withCrcAcc v) ho
  | receive f =>
    cases ho : s.sessState with
    | closed =>
      cases (exec_receive_of_closed ho).symm.trans h
      exact exec_receive_of_closed (s := s.withCrcAcc v) ho
    | opened =>
      cases hf : decodeFrame f with
      | error r =>
        cases (exec_receive_of_invalid ho hf).symm.trans h
        exact exec_receive_of_invalid (s := s.withCrcAcc v) ho hf
      | ok m =>
        cases hv : ptValid m.cookie s.pt with
        | false =>
          cases (exec_receive_of_unmatched ho hf hv).symm.trans h
          exact exec_receive_of_unmatched (s := s.withCrcAcc v) ho hf hv
        | true =>
          cases (exec_receive_of_pending ho hf hv).symm.trans h
          exact exec_receive_of_pending (s := s.withCrcAcc v) ho hf hv
  | csrRead index =>
    have hview : csrView index (s.withCrcAcc v) = csrView index s := csrView_withCrcAcc v s (fun h5 => hcsr (h5 ▸ rfl))
    cases hs : csrView index s with
    | none =>
      cases (exec_csrRead_of_no_view hs).symm.trans h
      exact exec_csrRead_of_no_view (hview.trans hs)
    | some n =>
      cases (exec_csrRead_of_view hs).symm.trans h
      exact exec_csrRead_of_view (hview.trans hs)
  | expire c =>
    cases he : expirable c s with
    | false =>
      cases (exec_expire_of_not_expirable he).symm.trans h
      exact exec_expire_of_not_expirable (s := s.withCrcAcc v) he
    | true =>
      cases (exec_expire_of_expirable he).symm.trans h
      exact exec_expire_of_expirable (s := s.withCrcAcc v) he
  | send cmd p n =>
    cases h
    rw [exec_send, sendRequest_withCrcAcc]
  | tick | ioError _ | cfgRemote _ _ | reserved0 | reservedE | reservedF =>
    cases h
    rfl
  | ping _ | readgm _ | writeoutmute _ _ _ | info _ | standby _ _ =>
    cases h
    exact congrArg _ (startCall_withCrcAcc v s _ _ _)
  | pingResponse _ | readgmResponse _ | writeoutmuteResponse _ | infoResponse _ | standbyResponse _ =>
    cases h
    exact congrArg _ (finishCall_withCrcAcc v s _ _)

/-- Settles O8: outside the unit by `exec_withCrcAcc`; each instruction of the unit is a rule on CRC_ACC. -/
theorem crcUnitAndSessionDoNotInterfere : Obligations.CrcUnitAndSessionDoNotInterfere := by
  refine ⟨fun i s t v hclear hupdate hread hreset hcsr h =>
    ⟨(exec_effect h).crcAcc_eq hclear hupdate hreset, exec_withCrcAcc v hclear hupdate hread hreset hcsr h⟩, ?unit⟩
  case unit =>
    rintro i (rfl | ⟨d, rfl⟩ | rfl)
    · exact ⟨fun _ => 0x0000#16, fun _ => ⟨.ok, .num 0⟩, exec_crcClear⟩
    · exact ⟨fun a => crcByte a d, fun a => ⟨.ok, .num (crcByte a d).toNat⟩, exec_crcUpdate d⟩
    · exact ⟨id, fun a => ⟨.ok, .num a.toNat⟩, exec_crcRead⟩

end Sys2Proof.Machine

/-! PROOFS. The whole-machine rules over all instructions: completion (R280), the writers of each register (R36), the
sticky fault (R29), transmission (R204), the ports' order (R70) and the session's transitions (R180). -/

namespace Sys2Proof.Machine

/-! ### Every instruction completes -/

/-- Settles O29: the arms that branch do so on the operands and the state, and each branch answers a next state. -/
theorem everyInstructionCompletes : Obligations.EveryInstructionCompletes := by
  intro i s
  cases i with
  | encode cmd cookie port p =>
    obtain hp | hp := Nat.lt_or_ge 65535 p.length
    · exact ⟨_, exec_encode_of_gt s hp⟩
    · exact ⟨_, exec_encode_of_le s hp⟩
  | decode f =>
    cases hf : decodeFrame f with
    | ok m => exact ⟨_, exec_decode_of_ok s hf⟩
    | error r => exact ⟨_, exec_decode_of_error s hf⟩
  | openSession p =>
    cases hs : s.sessState with
    | opened => exact ⟨_, exec_openSession_of_opened hs⟩
    | closed =>
      cases hh : s.remoteHost with
      | none => exact ⟨_, exec_openSession_of_no_remote hs hh⟩
      | some h => exact ⟨_, exec_openSession_of_remote hs hh⟩
  | closeSession =>
    cases hs : s.sessState with
    | opened => exact ⟨_, exec_closeSession_of_opened hs⟩
    | closed => exact ⟨_, exec_closeSession_of_closed hs⟩
  | receive f =>
    obtain ⟨r, h⟩ | ⟨m, -, -, -, h⟩ := execReceive_cases f s <;> exact ⟨_, h⟩
  | csrRead index =>
    cases hv : csrView index s with
    | some v => exact ⟨_, exec_csrRead_of_view hv⟩
    | none => exact ⟨_, exec_csrRead_of_no_view hv⟩
  | expire c =>
    obtain ⟨-, h⟩ | ⟨-, h⟩ := execExpire_cases c s <;> exact ⟨_, h⟩
  | _ => exact ⟨_, rfl⟩

/-! ### The writers of each register -/

/-- Settles O30: the effects, one by one, against the table of R36. -/
theorem registersHaveOnlyTheirWriters : Obligations.RegistersHaveOnlyTheirWriters := by
  intro i s t h
  cases exec_effect h with
  | answers => simp
  | crc _ _ hi =>
    obtain rfl | ⟨d, rfl⟩ := hi <;> simp
  | opens _ _ hi => subst hi; simp
  | closes _ hi => subst hi; simp
  | sends cmd p n _ _ _ hi =>
    obtain ⟨_, _, _, _, _, hs⟩ := sendRequest_eq cmd p n s
    simp [hs, hi]
  | drops _ _ hi => subst hi; simp
  | responds _ _ hi => subst hi; simp
  | ticks hi => subst hi; simp
  | expires _ hi => subst hi; simp [expireEntry]
  | configures _ _ _ hi => subst hi; simp
  | resets hi => subst hi; simp [resetRegisters, resolveLost]
  | waits => simp
  | returns => simp

/-! ### The sticky fault -/

theorem sendRequest_faultCollision (cmd : Byte) (p : Bytes) (n : Nat) (s : State) :
    (sendRequest cmd p n s).2.faultCollision = s.faultCollision ∨
    (s.sessState = .opened ∧ ptValid s.nextCookie s.pt = true ∧ (sendRequest cmd p n s).2.faultCollision = true) := by
  obtain ⟨code, v, -, -, h, -⟩ | ⟨ho, -, -, hv, h⟩ | ⟨-, -, -, -, h⟩ := sendRequest_cases cmd p n s <;> rw [h]
  · exact .inl rfl
  · exact .inr ⟨ho, hv, rfl⟩
  · exact .inl rfl

/-- R29: the bit is written by a colliding SEND, which sets it, and by the reset. -/
theorem Effect.faultCollision_eq {i : Instr} {s t : State} (he : Effect i s t) (hreset : i ≠ .reset) :
    t.faultCollision = s.faultCollision ∨
    (i.issuesSend = true ∧ s.sessState = .opened ∧ ptValid s.nextCookie s.pt = true ∧ t.faultCollision = true) := by
  cases he with
  | resets hi => exact absurd hi hreset
  | sends cmd p n _ _ _ hi => exact (sendRequest_faultCollision cmd p n s).imp_right fun hc => ⟨hi, hc⟩
  | _ => exact .inl rfl

/-- Settles O31: the two writers of `Effect.faultCollision_eq`. -/
theorem collisionFaultIsSticky : Obligations.CollisionFaultIsSticky := by
  intro i s t h
  have bit := (exec_effect h).faultCollision_eq
  refine ⟨fun hset hreset => ?kept, fun hclear hset => ?set, fun hreset => ?cleared⟩
  case kept =>
    obtain heq | ⟨-, -, -, ht⟩ := bit hreset
    · rw [heq, hset]
    · exact ht
  case set =>
    have hreset : i ≠ .reset := by
      rintro rfl
      cases h
      cases hset
    obtain heq | ⟨hi, ho, hv, -⟩ := bit hreset
    · rw [heq, hclear] at hset
      cases hset
    · exact ⟨hi, ho, hv⟩
  case cleared =>
    subst hreset
    cases h
    rfl

/-! ### Transmission -/

/-- R240: an instruction that issues a SEND does to the block what the SEND does. -/
theorem exec_of_issuesSend {i : Instr} {s t : State} (hi : i.issuesSend = true) (h : exec i s = .next t) :
    ∃ cmd p n hc hr hl,
      t = { (sendRequest cmd p n s).2 with hostCalls := hc, hostReturns := hr, logSink := hl } := by
  cases i with
  | send cmd p n =>
    cases h
    exact ⟨cmd, p, n, _, _, _, rfl⟩
  | ping _ | readgm _ | writeoutmute _ _ _ | info _ | standby _ _ =>
    cases h
    exact ⟨_, _, _, startCall_eq ..⟩
  | _ => cases hi

theorem Effect.tx_eq {i : Instr} {s t : State} (he : Effect i s t) (hi : i.issuesSend = false) : t.tx = s.tx := by
  cases he with
  | sends _ _ _ _ _ _ hs => simp [hi] at hs
  | _ => rfl

/-- Settles O32: a SEND transmits exactly where it answers OK, and nothing else transmits. -/
theorem eachRequestIsTransmittedOnce : Obligations.EachRequestIsTransmittedOnce := by
  intro i s t h
  refine ⟨fun hi => ?ok, fun hne => ?emits⟩
  case ok =>
    rintro ⟨n, hn⟩
    obtain ⟨cmd, p, timeout, _, _, _, rfl⟩ := exec_of_issuesSend hi h
    obtain ⟨-, -, hfail⟩ | ⟨-, -, -, -, -, -, -, htx⟩ := sendRequest_pt_tx cmd p timeout s
    · have hr : (sendRequest cmd p timeout s).1 = ⟨.ok, .num n⟩ := by simpa [sendRequest_result] using hn
      exact absurd (congrArg ResultRecord.code hr) hfail
    · exact ⟨_, htx⟩
  case emits =>
    have hi : i.issuesSend = true := by
      by_contra hi
      exact hne ((exec_effect h).tx_eq (Bool.eq_false_iff.2 hi))
    obtain ⟨cmd, p, timeout, _, _, _, rfl⟩ := exec_of_issuesSend hi h
    obtain ⟨-, htx, -⟩ | ⟨-, -, -, hfree, hr, hnext, hpt, htx⟩ := sendRequest_pt_tx cmd p timeout s
    · exact absurd htx hne
    · refine ⟨hi, ⟨_, htx, le16_encodeFrame_cookie .., rfl, rfl⟩, ?_, hfree, ?_, hnext.trans (cookie_succ _)⟩
      · rw [← hr]
        exact sendRequest_result ..
      · simp [hpt, ptValid_ptSet]

/-- Settles O20: the cookie of an OK is the next one, which was free, and registering it leaves the other entries. -/
theorem concurrentRequestsHaveDistinctCookies : Obligations.ConcurrentRequestsHaveDistinctCookies := by
  intro cmd p timeout n s t h hresult
  cases h
  have hr : (sendRequest cmd p timeout s).1 = ⟨.ok, .num n⟩ := by simpa [sendRequest_result] using hresult
  obtain ⟨-, -, hfail⟩ | ⟨-, -, -, hfree, hok, -, hpt, -⟩ := sendRequest_pt_tx cmd p timeout s
  · exact absurd (congrArg ResultRecord.code hr) hfail
  · obtain rfl : s.nextCookie.toNat = n := by simpa [hr] using hok.symm
    rw [hpt]
    refine ⟨fun c d hd => ?_, s.nextCookie, rfl, by simp [ptValid_ptSet]⟩
    have hc : c ≠ s.nextCookie := by
      rintro rfl
      simp [ptValid, hd] at hfree
    exact ⟨fun heq => hc (BitVec.eq_of_toNat_eq heq), by rw [ptLookup_ptSet, if_neg hc, hd]⟩

/-! ### The ports' order -/

/-- An instruction in which a host program takes a completion is no other. -/
theorem takesCompletion_of_kinds {i : Instr} (h : i.takesCompletion = true) : i.issuesSend = false ∧ i ≠ .reset := by
  cases i with
  | pingResponse _ | readgmResponse _ | writeoutmuteResponse _ | infoResponse _ | standbyResponse _ => exact ⟨rfl, nofun⟩
  | _ => cases h

/-- R31: the ports that only the block writes keep their records in front of the new ones. -/
theorem Effect.ports_kept {i : Instr} {s t : State} (he : Effect i s t) :
    s.result <+: t.result ∧ s.tx <+: t.tx ∧ s.log <+: t.log ∧ s.status <+: t.status := by
  cases he with
  | sends cmd p n =>
    refine ⟨⟨_, (sendRequest_result cmd p n s).symm⟩, ?_, ?_, ?_⟩
    · obtain ⟨-, htx, -⟩ | ⟨-, -, -, -, -, -, -, htx⟩ := sendRequest_pt_tx cmd p n s <;> simp [htx]
    · obtain ⟨_, _, _, _, _, hs⟩ := sendRequest_eq cmd p n s
      simp [hs]
    · obtain ⟨_, _, _, _, _, hs⟩ := sendRequest_eq cmd p n s
      simp [hs]
  | _ => simp [expireEntry, resetRegisters, resolveLost]

/-- Only a host program's completion half takes records from CPL (R31, log 16). -/
theorem Effect.cpl_kept {i : Instr} {s t : State} (he : Effect i s t) (hi : i.takesCompletion = false) :
    s.cpl <+: t.cpl ∧ t.hostKept = s.hostKept := by
  cases he with
  | sends cmd p n =>
    obtain ⟨_, _, _, _, _, hs⟩ := sendRequest_eq cmd p n s
    simp [hs]
  | waits ht => simp [hi] at ht
  | returns _ _ _ _ _ _ _ ht => simp [hi] at ht
  | _ => simp [expireEntry, resetRegisters, resolveLost]

/-- A completion half emits nothing. -/
theorem Effect.cpl_suffix {i : Instr} {s t : State} (he : Effect i s t) (hi : i.takesCompletion = true) :
    t.cpl <:+ s.cpl ∧ (t.hostKept ++ t.cpl).Sublist (s.hostKept ++ s.cpl) := by
  cases he with
  | waits => exact ⟨List.suffix_rfl, .refl _⟩
  | returns _ _ _ _ _ _ _ _ ht => exact ⟨ht.cpl_suffix, ht.sublist⟩
  | answers _ _ _ ht => simp [hi] at ht
  | crc _ _ hc => obtain rfl | ⟨_, rfl⟩ := hc <;> cases hi
  | sends _ _ _ _ _ _ hs => simp [(takesCompletion_of_kinds hi).1] at hs
  | resets hr => exact absurd hr (takesCompletion_of_kinds hi).2
  | opens _ _ h | closes _ h | drops _ _ h | responds _ _ h | ticks h | expires _ h | configures _ _ _ h =>
    subst h
    cases hi

/-- Settles O33: every effect but a completion half's adds behind, and that one takes from the front. -/
theorem portsKeepTheirOrder : Obligations.PortsKeepTheirOrder := by
  intro i s t h
  have he := exec_effect h
  obtain ⟨hresult, htx, hlog, hstatus⟩ := he.ports_kept
  exact ⟨hresult, htx, hlog, hstatus, he.cpl_kept, he.cpl_suffix⟩

/-! ### The pending table in a step -/

/-- The effects by what they do to the pending table, to CPL and to TX. -/
inductive TableStep (i : Instr) (s t : State) : Prop
  /-- the three stay -/
  | keeps (hpt : t.pt = s.pt) (hcpl : t.cpl = s.cpl) (htx : t.tx = s.tx)
  /-- a host program takes records from CPL's front -/
  | takes (hi : i.takesCompletion = true) (hpt : t.pt = s.pt) (hcpl : t.cpl <:+ s.cpl) (htx : t.tx = s.tx)
  /-- a SEND that returns OK (R186) -/
  | registers (cmd : Byte) (p : Bytes) (n : Nat) (ho : s.sessState = .opened) (hp : p.length ≤ 65535)
      (hroom : pendingCount s < s.params.nPending) (hfree : ptValid s.nextCookie s.pt = false)
      (hpt : t.pt = ptSet s.nextCookie (s.now + n) s.pt) (hcpl : t.cpl = s.cpl)
      (htx : t.tx = s.tx ++ [⟨s.remoteHost, s.remotePort, encodeFrame cmd s.nextCookie s.localPort p⟩])
  /-- a RECEIVE that completes its request (R192) -/
  | responds (f : Bytes) (m : Message) (hi : i = .receive f) (hd : decodeFrame f = .ok m)
      (hv : ptValid m.cookie s.pt = true) (hpt : t.pt = ptClear m.cookie s.pt)
      (hcpl : t.cpl = s.cpl ++ [⟨m.cookie, .response, some m⟩]) (htx : t.tx = s.tx)
  /-- an enabled EXPIRE (R196) -/
  | expires (c : U16) (hi : i = .expire c) (he : expirable c s = true) (hpt : t.pt = ptClear c s.pt)
      (hcpl : t.cpl = s.cpl ++ [⟨c, .timeout, none⟩]) (htx : t.tx = s.tx)
  /-- CLOSE of an open session (R184) -/
  | aborts (order : List PtEntry) (hi : i = .closeSession) (hp : order.Perm s.pt) (hpt : t.pt = [])
      (hcpl : t.cpl = s.cpl ++ order.map abortOf) (htx : t.tx = s.tx)
  /-- the reset input (R321) -/
  | resets (hi : i = .reset) (hpt : t.pt = []) (hcpl : t.cpl = s.cpl) (htx : t.tx = s.tx)

theorem exec_tableStep {i : Instr} {s t : State} (h : exec i s = .next t) : TableStep i s t := by
  cases exec_effect h with
  | sends cmd p n =>
    obtain ⟨_, _, _, _, _, hs⟩ := sendRequest_eq cmd p n s
    have hcpl : (sendRequest cmd p n s).2.cpl = s.cpl := by rw [hs]
    obtain ⟨hpt, htx, -⟩ | ⟨ho, hp, hroom, hfree, -, -, hpt, htx⟩ := sendRequest_pt_tx cmd p n s
    · exact .keeps hpt hcpl htx
    · exact .registers cmd p n ho hp hroom hfree hpt hcpl htx
  | closes order hi _ hp => exact .aborts order hi hp rfl rfl rfl
  | responds f m hi _ hd hv => exact .responds f m hi hd hv rfl rfl rfl
  | expires c hi he => exact .expires c hi he rfl rfl rfl
  | resets hi => exact .resets hi rfl rfl rfl
  | returns _ _ _ _ _ _ _ hi ht => exact .takes hi rfl ht.cpl_suffix rfl
  | _ => exact .keeps rfl rfl rfl

/-! ### The session's transitions -/

/-- R180: OPEN opens; CLOSE and the reset close, leaving no entry. -/
theorem Effect.sessState_cases {i : Instr} {s t : State} (he : Effect i s t) :
    t.sessState = s.sessState ∨ ((∃ p, i = .openSession p) ∧ t.sessState = .opened) ∨
    ((i = .closeSession ∨ i = .reset) ∧ t.pt = []) := by
  cases he with
  | opens p _ hi => exact .inr (.inl ⟨⟨p, hi⟩, rfl⟩)
  | closes _ hi => exact .inr (.inr ⟨.inl hi, rfl⟩)
  | resets hi => exact .inr (.inr ⟨.inr hi, rfl⟩)
  | sends cmd p n =>
    obtain ⟨_, _, _, _, _, hs⟩ := sendRequest_eq cmd p n s
    exact .inl (by rw [hs])
  | _ => exact .inl rfl

/-- R180: while the session is closed no entry becomes valid. -/
theorem TableStep.valid_of_closed {i : Instr} {s t : State} (h : TableStep i s t) (hc : s.sessState = .closed)
    {c : U16} (hv : ptValid c t.pt = true) : ptValid c s.pt = true := by
  cases h with
  | keeps hpt | takes _ hpt => rwa [hpt] at hv
  | registers _ _ _ ho => simp [hc] at ho
  | responds _ _ _ _ _ hpt | expires _ _ _ hpt =>
    rw [hpt, ptValid_ptClear, Bool.and_eq_true] at hv
    exact hv.2
  | aborts _ _ _ hpt | resets _ hpt => simp [hpt] at hv

/-- Settles O34: the transitions by `Effect.sessState_cases`, the empty table by `TableStep.valid_of_closed`. -/
theorem sessionMovesOnlyByOpenCloseAndReset : Obligations.SessionMovesOnlyByOpenCloseAndReset := by
  intro i s t h
  obtain heq | ⟨hopen, ht⟩ | ⟨hclose, hpt⟩ := (exec_effect h).sessState_cases
  · refine ⟨fun hc ho => ?_, fun ho hc => ?_, fun hempty hc c => ?_⟩
    · simp [heq, hc] at ho
    · simp [heq, ho] at hc
    · rw [heq] at hc
      exact Bool.eq_false_iff.2 fun hv =>
        Bool.eq_false_iff.1 (hempty hc c) ((exec_tableStep h).valid_of_closed hc hv)
  · exact ⟨fun _ _ => hopen, fun _ hc => by simp [ht] at hc, fun _ hc => by simp [ht] at hc⟩
  · refine ⟨fun hc ho => ?_, fun _ _ => hclose, fun _ _ c => by rw [hpt, ptValid_nil]⟩
    obtain rfl | rfl := hclose
    · cases (exec_closeSession_of_closed hc).symm.trans h
      simp [hc] at ho
    · cases h
      cases ho

end Sys2Proof.Machine

/-! PROOFS. Requests and their completions: one trigger resolves a request (R202 a), along a run each is resolved once,
no TIMEOUT before the deadline (R330), the races of 60_exceptions.md (R289 c) and duplicates (R67). -/

namespace Sys2Proof.Machine

/-! ### Counting records of a cookie -/

/-- A canonical table has one entry of a pending cookie, and none of another. -/
theorem filter_cookie_of_ptWf {t : List PtEntry} (hw : ptWf t) (c : U16) :
    t.filter (fun e => decide (e.cookie = c)) = ((ptLookup c t).map fun d => ⟨c, d⟩).toList := by
  induction t with
  | nil => rfl
  | cons e t ih =>
    obtain ⟨hlt, hw⟩ := List.pairwise_cons.1 hw
    by_cases he : e.cookie = c
    · subst he
      have hnone : t.filter (fun x => decide (x.cookie = e.cookie)) = [] := by
        refine List.filter_eq_nil_iff.2 fun x hx => ?_
        have := hlt x hx
        simp only [decide_eq_true_eq]
        bv_omega
      simp [ptLookup, hnone]
    · simp [ptLookup, he, ih hw]

/-- The completions CLOSE emits for a cookie: one where it is pending, else none (R184). -/
theorem filter_aborts {order t : List PtEntry} (hw : ptWf t) (hp : order.Perm t) (c : U16) :
    (order.map abortOf).filter (fun k => decide (k.cookie = c)) =
      if ptValid c t then [⟨c, .aborted, none⟩] else [] := by
  have hfilter : (order.map abortOf).filter (fun k => decide (k.cookie = c)) =
      (order.filter fun e => decide (e.cookie = c)).map abortOf := List.filter_map
  have hperm := hp.filter fun e => decide (e.cookie = c)
  rw [filter_cookie_of_ptWf hw] at hperm
  rw [hfilter]
  cases hl : ptLookup c t with
  | none =>
    rw [hl] at hperm
    rw [List.perm_nil.1 hperm]
    simp [ptValid, hl]
  | some d =>
    rw [hl] at hperm
    rw [List.perm_singleton.1 hperm]
    simp [ptValid, hl, abortOf]

theorem expirable_valid {c : U16} {s : State} (h : expirable c s = true) : ptValid c s.pt = true := by
  obtain ⟨d, hd, -⟩ := (expirable_iff c s).1 h
  simp [ptValid, hd]

/-- Settles O35: the steps of the table that clear an entry, and the completions each emits. -/
theorem aPendingRequestIsResolvedByOneTrigger : Obligations.APendingRequestIsResolvedByOneTrigger := by
  intro i s t c hw h
  have hstep := exec_tableStep h
  refine ⟨fun hv hn => ?cleared, fun hstays htakes => ?others⟩
  case cleared =>
    cases hstep with
    | keeps hpt | takes _ hpt => rw [hpt, hv] at hn; cases hn
    | registers _ _ _ _ _ _ _ hpt => simp [hpt, ptValid_ptSet, hv] at hn
    | responds f m hi hd _ hpt hcpl =>
      obtain rfl : c = m.cookie := by simpa [hpt, ptValid_ptClear, hv] using hn
      exact .inl ⟨f, m, hi, hd, rfl, hcpl⟩
    | expires c' hi _ hpt hcpl =>
      obtain rfl : c = c' := by simpa [hpt, ptValid_ptClear, hv] using hn
      exact .inr (.inl ⟨hi, hcpl⟩)
    | aborts order hi hp _ hcpl =>
      exact .inr (.inr (.inl ⟨hi, _, hcpl, by rw [filter_aborts hw hp, if_pos hv]⟩))
    | resets hi _ hcpl => exact .inr (.inr (.inr ⟨hi, hcpl⟩))
  case others =>
    cases hstep with
    | keeps _ hcpl | registers _ _ _ _ _ _ _ _ hcpl | resets _ _ hcpl => rw [completionsOf, completionsOf, hcpl]
    | takes hi => simp [htakes] at hi
    | responds f m _ _ hm hpt hcpl =>
      have hne : m.cookie ≠ c := by
        rintro rfl
        simp [hpt, ptValid_ptClear, hm] at hstays
      simp [completionsOf, hcpl, hne]
    | expires c' _ he hpt hcpl =>
      have hne : c' ≠ c := by
        rintro rfl
        simp [hpt, ptValid_ptClear, expirable_valid he] at hstays
      simp [completionsOf, hcpl, hne]
    | aborts order _ hp hpt hcpl =>
      have hv : ptValid c s.pt = false := by simpa [hpt] using hstays
      have hnone := filter_aborts hw hp c
      rw [hv] at hnone
      rw [completionsOf, completionsOf, hcpl, List.countP_append, List.countP_eq_length_filter (l := order.map abortOf),
        hnone]
      rfl

/-- The canonical form is kept (R26). -/
theorem TableStep.ptWf {i : Instr} {s t : State} (h : TableStep i s t) (hw : Machine.ptWf s.pt) : Machine.ptWf t.pt := by
  cases h with
  | keeps hpt | takes _ hpt => rwa [hpt]
  | registers _ _ _ _ _ _ _ hpt => rw [hpt]; exact ptWf_ptSet _ _ hw
  | responds _ _ _ _ _ hpt | expires _ _ _ hpt => rw [hpt]; exact ptWf_ptClear _ hw
  | aborts _ _ _ hpt | resets _ hpt => rw [hpt]; exact .nil

/-- R202 a, R204 for one step: what a cookie's requests sent grow by, its completions and its pending entry grow by. -/
theorem TableStep.balance {i : Instr} {s t : State} (h : TableStep i s t) (hw : Machine.ptWf s.pt) (hreset : i ≠ .reset)
    (htakes : i.takesCompletion = false) (c : U16) :
    pendingOf c t + completionsOf c t + sentOf c s = pendingOf c s + completionsOf c s + sentOf c t := by
  unfold pendingOf completionsOf sentOf
  cases h with
  | keeps hpt hcpl htx => rw [hpt, hcpl, htx]
  | takes hi => simp [htakes] at hi
  | resets hi => exact absurd hi hreset
  | registers cmd p n _ _ _ hfree hpt hcpl htx =>
    rw [hpt, hcpl, htx, ptValid_ptSet, List.countP_append]
    by_cases hc : c = s.nextCookie
    · subst hc
      simp [hfree, le16_encodeFrame_cookie]
      omega
    · simp [hc, Ne.symm hc, le16_encodeFrame_cookie]
  | responds f m _ _ hm hpt hcpl htx =>
    rw [hpt, hcpl, htx, ptValid_ptClear, List.countP_append]
    by_cases hc : c = m.cookie
    · subst hc
      simp [hm]
      omega
    · simp [hc, Ne.symm hc]
  | expires c' _ he hpt hcpl htx =>
    rw [hpt, hcpl, htx, ptValid_ptClear, List.countP_append]
    by_cases hc : c = c'
    · subst hc
      simp [expirable_valid he]
      omega
    · simp [hc, Ne.symm hc]
  | aborts order _ hp hpt hcpl htx =>
    rw [hpt, hcpl, htx, List.countP_append, List.countP_eq_length_filter (l := order.map abortOf), filter_aborts hw hp]
    cases ptValid c s.pt
    · simp
    · simp
      omega

/-- A run that ends in a next state has taken its first instruction's step. -/
theorem execAll_cons_eq_next {i : Instr} {p : List Instr} {s t : State} (h : execAll (i :: p) s = .next t) :
    ∃ u, exec i s = .next u ∧ execAll p u = .next t := by
  unfold execAll at h
  split at h
  · exact ⟨_, ‹_›, h⟩
  · cases h
  · cases h

/-- Settles O36: the balance of one step, added up along the run. A colliding SEND changes none of the three counts, so
R286's premise is not used. -/
theorem everyRequestIsResolvedExactlyOnce : Obligations.EveryRequestIsResolvedExactlyOnce := by
  intro run s t c hw hrun h _
  induction run generalizing s with
  | nil =>
    cases h
    rfl
  | cons i run ih =>
    obtain ⟨u, hi, hrest⟩ := execAll_cons_eq_next h
    obtain ⟨⟨hreset, htakes⟩, hrun⟩ := List.forall_mem_cons.1 hrun
    have hfirst := (exec_tableStep hi).balance hw hreset htakes c
    have hothers := ih u ((exec_tableStep hi).ptWf hw) hrun hrest
    omega

/-- Settles O37: of the records a step emits, only an enabled EXPIRE's is a TIMEOUT. -/
theorem noTimeoutBeforeTheDeadline : Obligations.NoTimeoutBeforeTheDeadline := by
  intro i s t new k h hnew hk hkind
  cases exec_tableStep h with
  | keeps _ hcpl | registers _ _ _ _ _ _ _ _ hcpl | resets _ _ hcpl =>
    obtain rfl : new = [] := by simpa [hcpl] using hnew
    cases hk
  | takes _ _ hcpl =>
    obtain rfl : new = [] := by
      have := hcpl.length_le
      simp only [hnew, List.length_append] at this
      exact List.eq_nil_of_length_eq_zero (by omega)
    cases hk
  | responds f m _ _ _ _ hcpl =>
    obtain rfl : [⟨m.cookie, .response, some m⟩] = new := by simpa [hcpl] using hnew
    obtain rfl := List.mem_singleton.1 hk
    cases hkind
  | aborts order _ _ _ hcpl =>
    obtain rfl : order.map abortOf = new := by simpa [hcpl] using hnew
    obtain ⟨e, -, rfl⟩ := List.mem_map.1 hk
    cases hkind
  | expires c _ he _ hcpl =>
    obtain rfl : [⟨c, .timeout, none⟩] = new := by simpa [hcpl] using hnew
    obtain rfl := List.mem_singleton.1 hk
    exact (expirable_iff c s).1 he

/-! ### Two triggers for one cookie -/

theorem ptValid_ptClear_self (c : U16) (t : List PtEntry) : ptValid c (ptClear c t) = false := by
  simp [ptValid_ptClear]

theorem not_expirable_of_not_valid {c : U16} {s : State} (h : ptValid c s.pt = false) : expirable c s = false := by
  by_contra he
  rw [expirable_valid (Bool.eq_true_of_not_eq_false he)] at h
  cases h

/-- Settles O23: the first delivery clears the entry that the second looks for. -/
theorem duplicateReplyIsDropped : Obligations.DuplicateReplyIsDropped := by
  intro f m s t ho hd hv h
  cases (exec_receive_of_pending ho hd hv).symm.trans h
  exact ⟨exec_receive_of_unmatched ho hd (ptValid_ptClear_self _ _), rfl⟩

/-- Settles O38: the first of the two clears the entry, so the second is not enabled, or unmatched. -/
theorem responseAndTimeoutRace : Obligations.ResponseAndTimeoutRace := by
  intro f m d s ho hd hl hdue
  have hv : ptValid m.cookie s.pt = true := by simp [ptValid, hl]
  have he : expirable m.cookie s = true := (expirable_iff _ s).2 ⟨d, hl, hdue⟩
  have hcleared := ptValid_ptClear_self m.cookie s.pt
  constructor
  · refine ⟨emitCpl [⟨m.cookie, .response, some m⟩] { s with pt := ptClear m.cookie s.pt }, ?_, rfl, rfl, hcleared⟩
    rw [execAll_cons_of_next (exec_receive_of_pending ho hd hv),
      execAll_cons_of_next (exec_expire_of_not_expirable (not_expirable_of_not_valid hcleared)), execAll_nil]
  · refine ⟨emitLog ⟨.debug, .dropUnmatched, .cookie m.cookie⟩ (expireEntry m.cookie s), ?_, rfl, rfl, hcleared⟩
    rw [execAll_cons_of_next (exec_expire_of_expirable he),
      execAll_cons_of_next (exec_receive_of_unmatched (s := expireEntry m.cookie s) ho hd hcleared), execAll_nil]

/-! ### The count of valid entries -/

/-- Settles O39: the cookies of a canonical table are distinct, and they are the valid ones. -/
theorem pendingCountCountsTheValidEntries : Obligations.PendingCountCountsTheValidEntries := by
  intro s hw
  have hcount : pendingCount s = (Finset.univ.filter fun n : Fin 65536 => ptValid (BitVec.ofFin n) s.pt = true).card := by
    have hnodup : (s.pt.map fun e => e.cookie.toFin).Nodup := by
      refine List.pairwise_map.2 (hw.imp fun {a b} hlt heq => ?_)
      rw [BitVec.toFin_inj.1 heq] at hlt
      bv_omega
    have hset : (Finset.univ.filter fun n : Fin 65536 => ptValid (BitVec.ofFin n) s.pt = true) =
        (s.pt.map fun e => e.cookie.toFin).toFinset := by
      ext n
      simp only [Finset.mem_filter, Finset.mem_univ, true_and, ptValid_iff_mem, List.mem_toFinset, List.mem_map]
      exact exists_congr fun e => and_congr_right fun _ => ⟨fun h => by rw [h], fun h => by rw [← h]⟩
    rw [hset, List.toFinset_card_of_nodup hnodup, List.length_map, pendingCount]
  refine ⟨hcount, ?_⟩
  calc pendingCount s
      _ = _ := hcount
      _ ≤ Fintype.card (Fin 65536) := Finset.card_le_univ _
      _ = 65536 := Fintype.card_fin _

end Sys2Proof.Machine

/-! PROOFS. The step: the decoded instruction (log 6), consumers (R31), the block left alone (log 7), and the machine's
invariant. -/

namespace Sys2Proof.Machine

/-! ### The step by its next input -/

/-- Log 6. -/
theorem step_of_present {s : State} {line : Line} {record : Bytes} {rest : List Event} {i : Instr}
    (hs : s.inputs = .present line record :: rest) (hd : decode line record = .ok i) :
    step s = exec i { s with inputs := rest } := by
  simp [step, hs, hd]

/-- R31. -/
theorem step_of_takeFront {s : State} {p : Port} {rest : List Event} (hs : s.inputs = .takeFront p :: rest) :
    step s = .next (takeFront p { s with inputs := rest }) := by
  simp [step, hs]

/-- R104. -/
theorem step_of_waitCpl {s : State} {c : U16} {rest : List Event} (hs : s.inputs = .waitCpl c :: rest) :
    step s = .next (waitCpl c { s with inputs := rest }) := by
  simp [step, hs]

/-- Log 7. -/
theorem step_of_no_input {s : State} (hs : s.inputs = []) : step s = .next (ownStep s) := by
  simp [step, hs]

/-- Settles O42: the step's arm for a record that decodes. -/
theorem stepRunsTheDecodedInstruction : Obligations.StepRunsTheDecodedInstruction :=
  fun _ _ _ _ _ => step_of_present

/-! ### Consumers -/

theorem takeFront_log_of_cons {s : State} {r : LogRecord} {l : List LogRecord} (h : s.log = r :: l) :
    takeFront .log s = { s with log := l, logSink := s.logSink ++ [.block r] } := by
  simp [takeFront, h]

theorem waitCpl_of_takesNext {c : U16} {s t : State} {k : Completion} (h : TakesNext c s k t) : waitCpl c s = t := by
  simp [waitCpl, nextCompletion_eq_some.2 h]

/-- Settles O43: each port's front record, and `TakesNext` for WAIT CPL. -/
theorem consumersTakeTheNextRecord : Obligations.ConsumersTakeTheNextRecord := by
  intro s rest
  refine ⟨fun r l hs hl => ?result, fun d l hs hl => ?tx, fun k l hs hl => ?cpl, fun r l hs hl => ?log,
    fun r l hs hl => ?status, fun c k t hs ht => ?wait⟩
  case result => simp [step_of_takeFront hs, takeFront, hl]
  case tx => simp [step_of_takeFront hs, takeFront, hl]
  case cpl => simp [step_of_takeFront hs, takeFront, hl]
  case log =>
    exact (step_of_takeFront hs).trans (congrArg _ (takeFront_log_of_cons (s := { s with inputs := rest }) hl))
  case status => simp [step_of_takeFront hs, takeFront, hl]
  case wait => rw [step_of_waitCpl hs, waitCpl_of_takesNext ht]

/-! ### The block left alone -/

theorem expirable_of_mem_dueEntries {s : State} (hw : ptWf s.pt) {e : PtEntry} (he : e ∈ dueEntries s) :
    expirable e.cookie s = true := by
  obtain ⟨hmem, hdue⟩ := mem_dueEntries.1 he
  exact (expirable_iff _ s).2 ⟨e.deadline, ptLookup_of_mem hw hmem, hdue⟩

/-- Settles O45: `ownStep` is the EXPIRE of a due entry, or nothing where none is due. -/
theorem withNoInputOnlyExpireMoves : Obligations.WithNoInputOnlyExpireMoves := by
  intro s hw hs
  rw [step_of_no_input hs]
  obtain ⟨hnone, hown⟩ | ⟨e, he, hown⟩ := ownStep_cases s
  · refine ⟨fun _ => by rw [hown], ?_⟩
    rintro ⟨e, hmem, hdue⟩
    exact absurd (hnone ▸ mem_dueEntries.2 ⟨hmem, hdue⟩) List.not_mem_nil
  · obtain ⟨hmem, hdue⟩ := mem_dueEntries.1 he
    refine ⟨fun hlate => absurd (hlate e hmem) (Nat.not_lt.2 hdue), fun _ => ⟨e, s.freeCount + 1, hmem, hdue, ?_⟩⟩
    rw [hown]
    exact (exec_expire_of_expirable (s := drawn s) (expirable_of_mem_dueEntries hw he)).symm

/-- In a canonical table the entries of another cookie are the other entries. -/
theorem cookie_eq_iff_of_mem {t : List PtEntry} (hw : ptWf t) {e x : PtEntry} (he : e ∈ t) (hx : x ∈ t) :
    x.cookie = e.cookie ↔ x = e := by
  refine ⟨fun h => ?_, fun h => by rw [h]⟩
  have hlookup := ptLookup_of_mem hw hx
  rw [h, ptLookup_of_mem hw he, Option.some.injEq] at hlookup
  cases x
  cases e
  simp_all

/-- The due entries after the EXPIRE of one of them. -/
theorem dueEntries_expireEntry {s : State} (hw : ptWf s.pt) {e : PtEntry} (he : e ∈ dueEntries s) :
    (e :: dueEntries (expireEntry e.cookie (drawn s))).Perm (dueEntries s) := by
  have hmem := (mem_dueEntries.1 he).1
  have hnodup : (dueEntries s).Nodup :=
    List.Nodup.filter _ (hw.imp fun {a b} hlt heq => by rw [heq] at hlt; bv_omega)
  have hrest : dueEntries (expireEntry e.cookie (drawn s)) = (dueEntries s).erase e := by
    rw [hnodup.erase_eq_filter]
    simp only [dueEntries, expireEntry_pt, expireEntry_now, drawn_pt, drawn_now, ptClear]
    rw [List.filter_comm]
    refine List.filter_congr fun x hx => ?_
    have hx := (List.mem_filter.1 hx).1
    simp [cookie_eq_iff_of_mem hw hmem hx, bne, beq_eq_decide]
  rw [hrest]
  exact (List.perm_cons_erase he).symm

theorem undue_expireEntry {s : State} {e : PtEntry} (hw : ptWf s.pt) (he : e ∈ dueEntries s) :
    (expireEntry e.cookie (drawn s)).pt.filter (fun x => decide (s.now < x.deadline)) =
      s.pt.filter fun x => decide (s.now < x.deadline) := by
  obtain ⟨hmem, hdue⟩ := mem_dueEntries.1 he
  rw [expireEntry_pt, drawn_pt, ptClear, List.filter_filter]
  refine List.filter_congr fun x hx => ?_
  by_cases hc : x.cookie = e.cookie
  · obtain rfl := (cookie_eq_iff_of_mem hw hmem hx).1 hc
    simp [hdue]
  · simp [hc]

/-- Settles O46: by induction on the number of due entries; each step expires one and leaves the others due. -/
theorem dueRequestsAllTimeOut : Obligations.DueRequestsAllTimeOut := by
  intro s hw hs
  induction hn : (dueEntries s).length generalizing s with
  | zero =>
    have hnone := List.eq_nil_of_length_eq_zero hn
    refine ⟨s, [], rfl, by rw [hnone], by simp, ?_, rfl⟩
    refine (List.filter_eq_self.2 fun e he => ?_).symm
    have hdue : e ∉ dueEntries s := by simp [hnone]
    rw [mem_dueEntries] at hdue
    simp only [decide_eq_true_eq]
    exact Nat.lt_of_not_le fun h => hdue ⟨he, h⟩
  | succ n ih =>
    obtain ⟨hnone, -⟩ | ⟨e, he, hown⟩ := ownStep_cases s
    · simp [hnone] at hn
    have hperm := dueEntries_expireEntry hw he
    have hlen : (dueEntries (expireEntry e.cookie (drawn s))).length = n := by
      have := hperm.length_eq
      simp only [List.length_cons] at this
      omega
    obtain ⟨t, order, hrun, horder, hcpl, hpt, hnow⟩ := ih (expireEntry e.cookie (drawn s)) (ptWf_ptClear _ hw) hs hlen
    refine ⟨t, e :: order, ?_, (horder.cons e).trans hperm, ?_, hpt.trans (undue_expireEntry hw he), hnow⟩
    · rw [core_run_next ((step_of_no_input hs).trans (congrArg _ hown)), hrun]
    · simp [hcpl]

/-! ### The invariant -/

/-- Settles O40: every list of the power-on state is empty. -/
theorem invariantHoldsAtReset : Obligations.InvariantHoldsAtReset where
  table := .nil
  closedEmpty _ := rfl
  closedPort _ := rfl
  openRemote := nofun
  capacity := Nat.zero_le _
  completions := nofun
  datagrams := nofun

/-- The fields the invariant reads, with records only taken from the ports. -/
structure Retains (s t : State) : Prop where
  pt : t.pt = s.pt
  sessState : t.sessState = s.sessState
  localPort : t.localPort = s.localPort
  remoteHost : t.remoteHost = s.remoteHost
  params : t.params = s.params
  completions : t.hostKept ++ t.cpl ⊆ s.hostKept ++ s.cpl
  datagrams : t.tx ⊆ s.tx

theorem Inv.of_retains {s t : State} (hs : Inv s) (h : Retains s t) : Inv t where
  table := h.pt ▸ hs.table
  closedEmpty hc := h.pt.trans (hs.closedEmpty (h.sessState ▸ hc))
  closedPort hc := h.localPort.trans (hs.closedPort (h.sessState ▸ hc))
  openRemote ho := h.remoteHost ▸ hs.openRemote (h.sessState ▸ ho)
  capacity := by
    rw [pendingCount, h.pt, h.params]
    exact hs.capacity
  completions k hk := hs.completions k (h.completions hk)
  datagrams d hd := hs.datagrams d (h.datagrams hd)

theorem eq_nil_iff_forall_not_valid {t : List PtEntry} : t = [] ↔ ∀ c, ptValid c t = false := by
  refine ⟨fun h => h ▸ ptValid_nil, fun h => List.eq_nil_iff_forall_not_mem.2 fun e he => ?_⟩
  exact Bool.eq_false_iff.1 (h e.cookie) ((ptValid_iff_mem _ _).2 ⟨e, he, rfl⟩)

/-- R26: a SEND adds an entry only where the table has room. -/
theorem TableStep.capacity {i : Instr} {s t : State} (h : TableStep i s t)
    (hs : s.pt.length ≤ s.params.nPending) : t.pt.length ≤ s.params.nPending := by
  cases h with
  | keeps hpt | takes _ hpt => rwa [hpt]
  | registers _ _ _ _ _ hroom _ hpt =>
    rw [hpt]
    exact (length_ptSet_le _ _ _).trans hroom
  | responds _ _ _ _ _ hpt | expires _ _ _ hpt =>
    rw [hpt]
    exact (length_ptClear_le _ _).trans hs
  | aborts _ _ _ hpt | resets _ hpt => simp [hpt]

/-- R203: every completion a step emits has the form of its kind. -/
theorem TableStep.completionWf_of_mem {i : Instr} {s t : State} (h : TableStep i s t) {k : Completion}
    (hk : k ∈ t.cpl) : k ∈ s.cpl ∨ completionWf k := by
  cases h with
  | keeps _ hcpl | registers _ _ _ _ _ _ _ _ hcpl | resets _ _ hcpl => exact .inl (hcpl ▸ hk)
  | takes _ _ hcpl => exact .inl (hcpl.subset hk)
  | responds f m _ _ _ _ hcpl =>
    rw [hcpl] at hk
    refine (List.mem_append.1 hk).imp_right fun hk => ?_
    obtain rfl := List.mem_singleton.1 hk
    exact ⟨m, rfl, rfl⟩
  | expires c _ _ _ hcpl =>
    rw [hcpl] at hk
    refine (List.mem_append.1 hk).imp_right fun hk => ?_
    obtain rfl := List.mem_singleton.1 hk
    exact rfl
  | aborts order _ _ _ hcpl =>
    rw [hcpl] at hk
    refine (List.mem_append.1 hk).imp_right fun hk => ?_
    obtain ⟨e, -, rfl⟩ := List.mem_map.1 hk
    exact rfl

/-- R186, R205: a datagram a step emits is the frame of a SEND of the open session. -/
theorem TableStep.datagramWf_of_mem {i : Instr} {s t : State} (h : TableStep i s t)
    (hremote : s.sessState = .opened → s.remoteHost ≠ none) {d : Datagram} (hd : d ∈ t.tx) :
    d ∈ s.tx ∨ datagramWf d := by
  cases h with
  | keeps _ _ htx | takes _ _ _ htx | responds _ _ _ _ _ _ _ htx | expires _ _ _ _ _ htx | aborts _ _ _ _ _ htx
  | resets _ _ _ htx => exact .inl (htx ▸ hd)
  | registers cmd p n ho hp _ _ _ _ htx =>
    rw [htx] at hd
    refine (List.mem_append.1 hd).imp_right fun hd => ?_
    obtain rfl := List.mem_singleton.1 hd
    exact ⟨hremote ho, _, frameRoundTrip cmd s.nextCookie s.localPort p hp⟩

/-- R23, R182: LOCAL_PORT and REMOTE_HOST move with the session. -/
theorem Effect.session_fields {i : Instr} {s t : State} (he : Effect i s t)
    (hport : s.sessState = .closed → s.localPort = 0#16) (hremote : s.sessState = .opened → s.remoteHost ≠ none) :
    (t.sessState = .closed → t.localPort = 0#16) ∧ (t.sessState = .opened → t.remoteHost ≠ none) := by
  cases he with
  | opens p h _ _ hh => exact ⟨nofun, fun _ => by simp [hh]⟩
  | closes => exact ⟨fun _ => rfl, nofun⟩
  | configures => exact ⟨hport, fun _ => nofun⟩
  | resets => exact ⟨fun _ => rfl, nofun⟩
  | sends cmd p n =>
    obtain ⟨_, _, _, _, _, hs⟩ := sendRequest_eq cmd p n s
    rw [hs]
    exact ⟨hport, hremote⟩
  | _ => exact ⟨hport, hremote⟩

/-- The records the host keeps and those on CPL are of before or newly emitted. -/
theorem Effect.mem_completions {i : Instr} {s t : State} (he : Effect i s t) {k : Completion}
    (hk : k ∈ t.hostKept ++ t.cpl) : k ∈ s.hostKept ++ s.cpl ∨ k ∈ t.cpl := by
  cases hi : i.takesCompletion with
  | true => exact .inl ((he.cpl_suffix hi).2.subset hk)
  | false =>
    rw [(he.cpl_kept hi).2] at hk
    exact (List.mem_append.1 hk).imp_left fun hk => List.mem_append_left _ hk

theorem exec_keeps_inv {i : Instr} {s t : State} (hs : Inv s) (h : exec i s = .next t) : Inv t := by
  have he := exec_effect h
  have hstep := exec_tableStep h
  obtain ⟨hport, hremote⟩ := he.session_fields hs.closedPort hs.openRemote
  refine ⟨hstep.ptWf hs.table, fun hc => ?closedEmpty, hport, hremote, ?capacity, fun k hk => ?completions,
    fun d hd => ?datagrams⟩
  case closedEmpty =>
    obtain ⟨-, -, hmoves⟩ := sessionMovesOnlyByOpenCloseAndReset i s t h
    exact eq_nil_iff_forall_not_valid.2 (hmoves (fun hc => eq_nil_iff_forall_not_valid.1 (hs.closedEmpty hc)) hc)
  case capacity =>
    obtain ⟨-, -, -, -, -, -, -, -, -, hparams, -⟩ := registersHaveOnlyTheirWriters i s t h
    rw [hparams]
    exact hstep.capacity hs.capacity
  case completions =>
    obtain hk | hk := he.mem_completions hk
    · exact hs.completions k hk
    · exact (hstep.completionWf_of_mem hk).elim (fun hk => hs.completions k (List.mem_append_right _ hk)) id
  case datagrams => exact (hstep.datagramWf_of_mem hs.openRemote hd).elim (hs.datagrams d) id

/-- The coming inputs are nothing the invariant reads. -/
theorem Inv.withInputs {s : State} (hs : Inv s) (rest : List Event) : Inv { s with inputs := rest } :=
  hs.of_retains ⟨rfl, rfl, rfl, rfl, rfl, fun _ => id, fun _ => id⟩

theorem Inv.drawn {s : State} (hs : Inv s) : Inv (drawn s) :=
  hs.of_retains ⟨rfl, rfl, rfl, rfl, rfl, fun _ => id, fun _ => id⟩

theorem Inv.takeFront {s : State} (hs : Inv s) (p : Port) : Inv (takeFront p s) := by
  apply hs.of_retains
  cases p with
  | result | status => exact ⟨rfl, rfl, rfl, rfl, rfl, fun _ => id, fun _ => id⟩
  | tx => exact ⟨rfl, rfl, rfl, rfl, rfl, fun _ => id, List.tail_subset _⟩
  | cpl => exact ⟨rfl, rfl, rfl, rfl, rfl, ((List.tail_sublist _).append_left _).subset, fun _ => id⟩
  | log =>
    cases hl : s.log with
    | nil => simp only [Machine.takeFront, hl]; exact ⟨rfl, rfl, rfl, rfl, rfl, fun _ => id, fun _ => id⟩
    | cons r l => rw [takeFront_log_of_cons hl]; exact ⟨rfl, rfl, rfl, rfl, rfl, fun _ => id, fun _ => id⟩

theorem Inv.waitCpl {s : State} (hs : Inv s) (c : U16) : Inv (waitCpl c s) := by
  cases hn : nextCompletion c s with
  | none => simpa only [Machine.waitCpl, hn] using hs
  | some kt =>
    have htakes := nextCompletion_eq_some.1 hn
    obtain ⟨l, kept, ht⟩ := htakes.eq
    rw [waitCpl_of_takesNext htakes]
    refine hs.of_retains ⟨?_, ?_, ?_, ?_, ?_, htakes.sublist.subset, ?_⟩ <;> rw [ht]
    exact List.Subset.refl _

theorem Inv.ownStep {s : State} (hs : Inv s) : Inv (ownStep s) := by
  obtain ⟨-, hown⟩ | ⟨e, he, hown⟩ := ownStep_cases s
  · rwa [hown]
  · rw [hown]
    exact exec_keeps_inv hs.drawn (exec_expire_of_expirable (expirable_of_mem_dueEntries hs.table he))

/-- Settles O41: by the next input, an instruction by `exec_keeps_inv`. -/
theorem everyStepKeepsTheInvariant : Obligations.EveryStepKeepsTheInvariant := by
  intro s t hs h
  cases hin : s.inputs with
  | nil =>
    cases (step_of_no_input hin).symm.trans h
    exact hs.ownStep
  | cons e rest =>
    cases e with
    | present line record =>
      cases hd : decode line record with
      | ok i => exact exec_keeps_inv (hs.withInputs rest) ((step_of_present hin hd).symm.trans h)
      | error err => simp [step, hin, hd] at h
    | takeFront p =>
      cases (step_of_takeFront hin).symm.trans h
      exact (hs.withInputs rest).takeFront p
    | waitCpl c =>
      cases (step_of_waitCpl hin).symm.trans h
      exact (hs.withInputs rest).waitCpl c
    | toggleMute channel => cases (step_of_toggleMute hin).symm.trans h

end Sys2Proof.Machine

/-! PROOFS. The host programs in their two halves (R240 to R249), their waits (R240, log 13), the waits a reset resolves
(R322), and the small statements: an EXPIRE not enabled (log 8), reserved op codes (R102), codes (R281 to R285). -/

namespace Sys2Proof.Machine

/-! ### The request half -/

/-- Both clauses of `StartsHostCall` for an instruction that is a request half. -/
theorem startsHostCall_of_exec {i : Option Nat → Instr} {kind : HostCallKind} {cmd : Byte} {payload : Params → Bytes}
    {failure : HostValue} (hcmd : kind.command = cmd) (hfailure : kind.failure = failure)
    (hexec : ∀ n s, exec (i n) s = .next (startCall kind (payload s.params) n s)) :
    StartsHostCall i kind cmd payload failure := by
  subst hcmd hfailure
  intro n s
  refine ⟨fun ho hp hroom hfree => ⟨ptSet s.nextCookie (s.now + n.getD Config.timeoutDefault) s.pt,
    fun c => ptLookup_ptSet _ c _ _, ?ok⟩, fun u r hsend hr hfail => ?failed⟩
  case ok =>
    have hsend := sendRequest_of_free (cmd := kind.command) (n := n.getD Config.timeoutDefault) ho hp hroom hfree
    rw [hexec, startCall_of_ok (congrArg (·.1.code) hsend), hsend, ← cookie_succ]
    rfl
  case failed =>
    rw [exec_send] at hsend
    obtain rfl := Host.Outcome.next.inj hsend
    obtain rfl : (sendRequest kind.command (payload s.params) (n.getD Config.timeoutDefault) s).1 = r := by
      simpa [sendRequest_result] using hr
    rw [hexec, startCall_of_not_ok hfail]

/-! ### The completion half -/

section
variable {kind : HostCallKind} {code : Byte} (hcode : responseCode kind.command = some code)
include hcode

/-- R241: the common checks pass exactly for a RESPONSE with the command's response code. -/
theorem replyPayload_eq_ok {k : Completion} {p : Bytes} : replyPayload kind k = .ok p ↔
    ∃ m, k.kind = .response ∧ k.msg = some m ∧ m.command = code ∧ m.payload = p := by
  unfold replyPayload
  split
  next m hkind hmsg =>
    simp only [hkind, hmsg, hcode, Option.some.injEq]
    by_cases hc : code = m.command
    · simp [hc]
    · simp [hc, Ne.symm hc]
  next hno =>
    simp only [reduceCtorEq, false_iff, not_exists, not_and]
    intro m hkind hmsg
    exact absurd hmsg (hno m hkind)

/-- R241: a host program returns a value exactly where the completion `Succeeds` with it. -/
theorem judge_eq_ok {read : Bytes → Option HostValue} {k : Completion} {v : HostValue} :
    judge kind read k = .ok v ↔ Succeeds code read k v := by
  have hjudge : judge kind read k = .ok v ↔ ∃ p, replyPayload kind k = .ok p ∧ read p = some v := by
    unfold judge
    cases replyPayload kind k with
    | error e => simp
    | ok p => cases hread : read p <;> simp [hread]
  rw [hjudge]
  simp only [replyPayload_eq_ok hcode]
  constructor
  · rintro ⟨_, ⟨m, hkind, hmsg, hcmd, rfl⟩, hread⟩
    exact ⟨m, hkind, hmsg, hcmd, hread⟩
  · rintro ⟨m, hkind, hmsg, hcmd, hread⟩
    exact ⟨_, ⟨m, hkind, hmsg, hcmd, rfl⟩, hread⟩

end

/-- Both clauses of `FinishesHostCall` for an instruction that is a completion half. -/
theorem finishesHostCall_of_exec {i : U16 → Instr} {kind : HostCallKind} {code : Byte}
    {read : Bytes → Option HostValue} {failure : HostValue}
    {reader : HostCallKind → Option (Bytes → Option HostValue)} (hcode : responseCode kind.command = some code)
    (hfailure : kind.failure = failure) (hreader : reader kind = some read)
    (hexec : ∀ c s, exec (i c) s = .next (finishCall reader c s)) :
    FinishesHostCall i kind code read failure := by
  subst hfailure
  intro c s t before after k hcalls hbefore htakes
  have hfinish := finishCall_found hreader hcalls hbefore htakes
  obtain ⟨l, kept, ht⟩ := htakes.eq
  refine ⟨fun v hv => ?returns, fun hnone => ?fails⟩
  case returns =>
    rw [hexec, hfinish, (judge_eq_ok hcode).2 hv, returnFrom, ht]
  case fails =>
    cases hj : judge kind read k with
    | ok v => exact absurd ((judge_eq_ok hcode).1 hj) (hnone v)
    | error cause =>
      refine ⟨cause, ?_⟩
      rw [hexec, hfinish, hj, returnFrom, ht]

/-! ### The programs -/

/-- Settles O51: R242. -/
theorem pingProgram : Obligations.PingProgram :=
  ⟨startsHostCall_of_exec rfl rfl fun _ _ => rfl, finishesHostCall_of_exec rfl rfl rfl fun _ _ => rfl⟩

/-- R243: getInfo's check of the length, as a test that passes. -/
theorem readInfo_eq (p : Bytes) : readInfo p = if 128 ≤ p.length then
    some ⟨infoField p 0, infoField p 1, infoField p 2, infoField p 3⟩ else none := by
  simp only [readInfo, ← Nat.not_le, ite_not]

theorem infoReader_getInfo : infoReader .getInfo = some fun p => if 128 ≤ p.length then
    some (.info (some ⟨infoField p 0, infoField p 1, infoField p 2, infoField p 3⟩)) else none := by
  simp only [infoReader, readInfo_eq, apply_ite (Option.map _), Option.map_some, Option.map_none]

/-- Settles O52: R243. -/
theorem getInfoProgram : Obligations.GetInfoProgram :=
  ⟨startsHostCall_of_exec rfl rfl fun _ _ => rfl, finishesHostCall_of_exec rfl rfl infoReader_getInfo fun _ _ => rfl⟩

/-- R245: getChannelCount's checks, as one test that passes. -/
theorem readChannelCount_eq (p : Bytes) : readChannelCount p =
    if 52 ≤ p.length ∧ p.getD 0 0#8 = 1#8 then some (p.getD 1 0#8) else none := by
  simp only [readChannelCount, getD_eq_byteAt, ← Nat.not_le, ← not_and_or, ite_not]
  congr

theorem readgmReader_getChannelCount : readgmReader .getChannelCount = some fun p =>
    if 52 ≤ p.length ∧ p.getD 0 0#8 = 1#8 then some (.channelCount (some (p.getD 1 0#8))) else none := by
  simp only [readgmReader, readChannelCount_eq, apply_ite (Option.map _), Option.map_some, Option.map_none]

/-- Settles O54: R245. -/
theorem getChannelCountProgram : Obligations.GetChannelCountProgram :=
  ⟨startsHostCall_of_exec rfl rfl fun _ _ => rfl,
    finishesHostCall_of_exec rfl rfl readgmReader_getChannelCount fun _ _ => rfl⟩

/-- R246: getStandbyStatus's checks, as one test that passes. -/
theorem readStandbyStatus_eq (p : Bytes) : readStandbyStatus p =
    if 4 ≤ p.length ∧ p.getD 0 0#8 = 1#8 then
      some ⟨decide (p.getD 1 0#8 = 2#8), decide (p.getD 1 0#8 = 1#8)⟩
    else none := by
  simp only [readStandbyStatus, getD_eq_byteAt, ← Nat.not_le, ← not_and_or, ite_not]
  congr

theorem standbyReader_getStandbyStatus : standbyReader .getStandbyStatus = some fun p =>
    if 4 ≤ p.length ∧ p.getD 0 0#8 = 1#8 then
      some (.standby (some ⟨decide (p.getD 1 0#8 = 2#8), decide (p.getD 1 0#8 = 1#8)⟩))
    else none := by
  simp only [standbyReader, readStandbyStatus_eq, apply_ite (Option.map _), Option.map_some, Option.map_none]

/-- Settles O55: R246. -/
theorem getStandbyStatusProgram : Obligations.GetStandbyStatusProgram :=
  ⟨startsHostCall_of_exec rfl rfl fun _ _ => rfl,
    finishesHostCall_of_exec rfl rfl standbyReader_getStandbyStatus fun _ _ => rfl⟩

theorem standbyReader_setStandbyStatus (turnOn : Bool) : standbyReader (.setStandbyStatus turnOn) = some fun p =>
    if 1 ≤ p.length ∧ p.getD 0 0#8 = 1#8 then some (.bool true) else none :=
  congrArg some (funext fun _ => if_congr decide_eq_true_iff rfl rfl)

/-- Settles O56: R248. -/
theorem setStandbyStatusProgram : Obligations.SetStandbyStatusProgram :=
  ⟨startsHostCall_of_exec rfl rfl fun _ _ => rfl, startsHostCall_of_exec rfl rfl fun _ _ => rfl,
    fun turnOn => finishesHostCall_of_exec rfl rfl (standbyReader_setStandbyStatus turnOn) fun _ _ => rfl⟩

theorem writeoutmuteReader_setOutputMute (channel : Byte) (mute : Bool) :
    writeoutmuteReader (.setOutputMute channel mute) = some fun p =>
      if p.getD 0 0#8 = 1#8 ∧ max Config.muteEchoChOff Config.muteEchoMuteOff < p.length ∧
          p.getD Config.muteEchoChOff 0#8 = channel ∧
          p.getD Config.muteEchoMuteOff 0#8 = (if mute then 1#8 else 0#8)
        then some (.bool true) else none :=
  congrArg some (funext fun _ => if_congr decide_eq_true_iff rfl rfl)

/-- Settles O57: R249, whatever the echo offsets. -/
theorem setOutputMuteProgram : Obligations.SetOutputMuteProgram :=
  fun channel mute => ⟨startsHostCall_of_exec rfl rfl fun _ _ => rfl,
    finishesHostCall_of_exec rfl rfl (writeoutmuteReader_setOutputMute channel mute) fun _ _ => rfl⟩

/-- Settles O58: byte 1 is 2, or 1, or neither, and never both. -/
theorem powerStateOfAReply : Obligations.PowerStateOfAReply := by
  refine ⟨rfl, fun p => ⟨fun hlen h0 h1 => ?online, fun hlen h0 h1 => ?standby, fun h => ?unknown, fun h => ?both⟩⟩
  case online =>
    rw [readStandbyStatus_eq, if_pos ⟨hlen, h0⟩, h1]
    rfl
  case standby =>
    rw [readStandbyStatus_eq, if_pos ⟨hlen, h0⟩, h1]
    rfl
  case unknown =>
    rw [readStandbyStatus_eq]
    by_cases hpass : 4 ≤ p.length ∧ p.getD 0 0#8 = 1#8
    · obtain ⟨hlen, h0⟩ := hpass
      obtain ⟨hn1, hn2⟩ := (h.resolve_left (Nat.not_lt.2 hlen)).resolve_left (not_not.2 h0)
      rw [if_pos ⟨hlen, h0⟩, decide_eq_false hn1, decide_eq_false hn2]
      rfl
    · rw [if_neg hpass]
      rfl
  case both =>
    rw [readStandbyStatus_eq] at h
    split at h
    · simp only [Option.some.injEq, StandbyStatus.mk.injEq, decide_eq_true_eq] at h
      obtain ⟨h2, h1⟩ := h
      rw [h2] at h1
      exact absurd h1 (by decide)
    · cases h

/-! ### Waiting, and the waits a reset resolves -/

theorem finishCall_of_none {reader : HostCallKind → Option (Bytes → Option HostValue)} {c : U16} {s : State}
    (h : nextCompletion c s = none) : finishCall reader c s = s := by
  obtain heq | ⟨k, _, _, _, _, _, htakes, -⟩ := finishCall_cases reader c s
  · exact heq
  · rw [nextCompletion_eq_some.2 htakes] at h
    cases h

/-- Settles O59: the five completion halves differ in their reader alone. -/
theorem aHostProgramWaitsForItsCompletion : Obligations.AHostProgramWaitsForItsCompletion := by
  intro c s hnone i hi
  have hwait (reader) : finishCall reader c s = s := finishCall_of_none (nextCompletion_eq_none.2 hnone)
  simp only [List.mem_cons, List.not_mem_nil, or_false] at hi
  obtain rfl | rfl | rfl | rfl | rfl := hi <;> exact congrArg _ (hwait _)

/-- Settles O2: the reset registers keep what `resolveLost` leaves the host. -/
theorem resetResolvesTheHostsLostWaits : Obligations.ResetResolvesTheHostsLostWaits := by
  intro s t h
  rw [exec_reset] at h
  cases h
  exact ⟨rfl, rfl, rfl⟩

/-! ### Small statements -/

/-- Settles O26: no entry, or one whose deadline lies ahead, is not `expirable`. -/
theorem expireNotEnabledChangesNothing : Obligations.ExpireNotEnabledChangesNothing := by
  intro c s hlate
  refine exec_expire_of_not_expirable (Bool.eq_false_iff.2 fun he => ?_)
  obtain ⟨d, hd, hdue⟩ := (expirable_iff c s).1 he
  exact absurd hdue (Nat.not_le.2 (hlate d hd))

/-- R102: the three reserved instructions are `illegalOp`. -/
theorem exec_reserved {i : Instr} (hi : i ∈ [Instr.reserved0, .reservedE, .reservedF]) (s : State) :
    exec i s = .next (emitResult .illegalOp .absent s) := by
  simp only [List.mem_cons, List.not_mem_nil, or_false] at hi
  obtain rfl | rfl | rfl := hi <;> rfl

/-- Settles O28: the records by evaluation, the effect by `exec_reserved`. -/
theorem reservedOpCodesAreIllegal : Obligations.ReservedOpCodesAreIllegal :=
  ⟨rfl, rfl, rfl, fun s _ hi => exec_reserved hi s⟩

/-- Settles O49: sixteen closed records, evaluated. -/
theorem tableCodesDecode : Obligations.TableCodesDecode := by
  unfold Obligations.TableCodesDecode
  decide

/-- Settles O60: closed lists of codes, evaluated. -/
theorem outcomeCodesHaveTheirNumbers : Obligations.OutcomeCodesHaveTheirNumbers := by
  unfold Obligations.OutcomeCodesHaveTheirNumbers
  decide

end Sys2Proof.Machine
